-- ==== Sys2Proof/Word.lean ====
section
/-! DEFINITION. The word types of the qurl-GRP block (spec/00_scope.md R4, R5, R6). -/

namespace Sys2Proof

/-- A field element, coefficient, character code, codeword or table entry (R4 `CWBITS`, R6, R8). -/
abbrev Byte := BitVec 8

/-- The host data path and a command word (R4 `DW`, `CMDW`). -/
abbrev Word := BitVec 32

/-- A cell address (R4 `AW`). -/
abbrev Addr := BitVec 16

/-- A polynomial: a sequence of coefficients, highest-degree term first (R6, R120). -/
abbrev Poly := List Byte

/-- A bit sequence in stream order: the head is the first bit (R5, R6). -/
abbrev BitSeq := List Bool

end Sys2Proof
end

