-- ==== Sys2Proof/Config.lean ====
section
/-! DEFINITION. The parameters of the block (spec/00_scope.md R4), each at the value the spec decides. -/

namespace Sys2Proof.Config

/-- Reduction polynomial of GF(256) (R4 `PRIM`). -/
def prim : Nat := 0x11D

/-- Multiplicative generator (R4 `GEN`). -/
def gen : Nat := 2

/-- Entry 255 of the exponent table (R4 `EXP255`, R21): a parameter the spec leaves open and decides as 1
(D7); log 3, DESIGN CHOICE, unsafe for a block built with another value. -/
def exp255 : Byte := 1

/-- Mode indicator of Numeric (R4 `MODEIND`, R144): decided by D16; log 4, PRESUMED (the spec takes it from
general knowledge), unsafe for a block built with another value. -/
def modeIndNumeric : BitVec 4 := 0b0001

/-- Mode indicator of Alphanumeric (R4 `MODEIND`, R144); as `modeIndNumeric`. -/
def modeIndAlphanumeric : BitVec 4 := 0b0010

/-- Pad bytes (R4 `PAD0`, `PAD1`). -/
def pad0 : Byte := 236

def pad1 : Byte := 17

/-- Longest terminator in bits (R4 `TERMMAX`). -/
def termMax : Nat := 4

/-- Width of the mode indicator (R4 `MODEBITS`). -/
def modeBits : Nat := 4

/-- Coefficient capacity of a polynomial register (R4 `PMAX`; log 5). -/
def pmax : Nat := 256

/-- Character capacity of the string buffer (R4 `SMAX`; log 5). -/
def smax : Nat := 8192

/-- Bit capacity of the bit buffer (R4 `BMAX`; log 5). -/
def bmax : Nat := 32768

end Sys2Proof.Config
end

