-- ==== Sys2Proof/Syntax.lean ====
section
/-! DEFINITION. The commands of the block: one constructor per row of spec/opcode_table.json
(spec/30_encoding.md R81, R82, R84). -/

namespace Sys2Proof

/-- A polynomial register designator, `P0` to `P3` (R24, R82). -/
inductive PReg where
  | p0
  | p1
  | p2
  | p3
deriving DecidableEq, Repr

/-- The nineteen commands (R84), with the operands of their formats (R81). -/
inductive Instr where
  /-- TINIT: build the field tables (R106). -/
  | tinit
  /-- ECLR: acknowledge the pending error (R170). -/
  | eclr
  /-- GFEXP n: field exponential (R107). -/
  | gfexp (n : Byte)
  /-- GFLOG n: field logarithm (R108). -/
  | gflog (n : Byte)
  /-- GFMUL x, y: field multiplication (R109). -/
  | gfmul (x y : Byte)
  /-- PCLR pd: empty a polynomial register (R125). -/
  | pclr (pd : PReg)
  /-- PMUL pd, pa, pb: polynomial product (R126). -/
  | pmul (pd pa pb : PReg)
  /-- GENP pd, n: generator polynomial (R127). -/
  | genp (pd : PReg) (n : Byte)
  /-- RSDIV pd, pg, pm: correction codewords (R128). -/
  | rsdiv (pd pg pm : PReg)
  /-- CWLD pd, off, len: copy codewords of the bit buffer (R129). -/
  | cwld (pd : PReg) (off : BitVec 12) (len : BitVec 10)
  /-- SCLR: empty the string buffer (R148). -/
  | sclr
  /-- MSEL: classify the string (R149). -/
  | msel
  /-- BCLR: empty the bit buffer (R150). -/
  | bclr
  /-- PKHDR: append the mode indicator and the character count (R151). -/
  | pkhdr
  /-- PKNUM: append the numeric payload (R152). -/
  | pknum
  /-- PKALN: append the alphanumeric payload (R153). -/
  | pkaln
  /-- PKTRM: append the terminator (R154). -/
  | pktrm
  /-- PKPAD: pad to a byte boundary and fill with pad bytes (R155). -/
  | pkpad
  /-- PACK: the whole packing in one command (R156). -/
  | pack
deriving DecidableEq, Repr

end Sys2Proof
end

