-- ==== Sys2Proof/WellFormed.lean ====
section
/-! DEFINITION. Which terms of `Instr` are commands: the operand widths are in the types, and the one check left is
CWLD's `len ≤ 256` (spec/30_encoding.md R81, R83 step 3, R85 (c)). -/

namespace Sys2Proof

/-- A command that some legal word encodes. Only CWLD has an operand its field could hold and the format
forbids (R85 (c)). -/
def Instr.wellFormed : Instr → Bool
  | .cwld _ _ len => decide (len.toNat ≤ 256)
  | .tinit | .eclr | .gfexp _ | .gflog _ | .gfmul _ _ | .pclr _ | .pmul _ _ _ | .genp _ _ | .rsdiv _ _ _
  | .sclr | .msel | .bclr | .pkhdr | .pknum | .pkaln | .pktrm | .pkpad | .pack => true

end Sys2Proof
end

