-- ==== Sys2Proof/Decode.lean ====
section
/-! DEFINITION. The command decoder, total on 32-bit words, and the encoder (spec/30_encoding.md R80 to R85). -/

namespace Sys2Proof

/-- `w[lo+n-1 : lo]` (R5). -/
def field (w : Word) (lo n : Nat) : BitVec n := w.extractLsb' lo n

/-- The must-be-zero test of `n` bits from bit `lo` (R81, R85 (b)). -/
def mustBeZero (w : Word) (lo n : Nat) : Bool := (field w lo n).toNat == 0

/-- The register a 2-bit designator names (R82). -/
def PReg.ofBits (b : BitVec 2) : PReg :=
  match b.toNat with
  | 0 => .p0
  | 1 => .p1
  | 2 => .p2
  | _ => .p3

/-- The number of a register, 0..3 (R82). -/
def PReg.number : PReg → Nat
  | .p0 => 0
  | .p1 => 1
  | .p2 => 2
  | .p3 => 3

/-- The register designator at bits `lo+1..lo`. -/
def regField (w : Word) (lo : Nat) : PReg := PReg.ofBits (field w lo 2)

/-- Format Z (R81). -/
def formatZ (w : Word) (i : Instr) : Option Instr :=
  if mustBeZero w 0 24 then some i else none

/-- Format N (R81). -/
def formatN (w : Word) (f : Byte → Instr) : Option Instr :=
  if mustBeZero w 8 16 then some (f (field w 0 8)) else none

/-- Format XY (R81). -/
def formatXY (w : Word) (f : Byte → Byte → Instr) : Option Instr :=
  if mustBeZero w 16 8 then some (f (field w 8 8) (field w 0 8)) else none

/-- Format P (R81). -/
def formatP (w : Word) (f : PReg → Instr) : Option Instr :=
  if mustBeZero w 18 6 && mustBeZero w 0 16 then some (f (regField w 16)) else none

/-- Format PPP (R81): `pd`, then the registers in the `pa` and `pb` positions. -/
def formatPPP (w : Word) (f : PReg → PReg → PReg → Instr) : Option Instr :=
  if mustBeZero w 18 6 && mustBeZero w 10 6 && mustBeZero w 2 6 then
    some (f (regField w 16) (regField w 8) (regField w 0))
  else none

/-- Format PN (R81). -/
def formatPN (w : Word) (f : PReg → Byte → Instr) : Option Instr :=
  if mustBeZero w 18 6 && mustBeZero w 8 8 then some (f (regField w 16) (field w 0 8)) else none

/-- Format PL (R81), with the check `len ≤ 256` (R83 step 3). -/
def formatPL (w : Word) (f : PReg → BitVec 12 → BitVec 10 → Instr) : Option Instr :=
  if (field w 0 10).toNat ≤ 256 then some (f (regField w 22) (field w 10 12) (field w 0 10)) else none

/-- The decoder (R83): the row of the opcode `w[31:24]` (R84), then its format's checks. `none` is an illegal
word (R85). -/
def decode (w : Word) : Option Instr :=
  match (field w 24 8).toNat with
  | 0x01 => formatZ w .tinit
  | 0x02 => formatZ w .eclr
  | 0x10 => formatN w .gfexp
  | 0x11 => formatN w .gflog
  | 0x12 => formatXY w .gfmul
  | 0x20 => formatP w .pclr
  | 0x21 => formatPPP w .pmul
  | 0x22 => formatPN w .genp
  | 0x23 => formatPPP w .rsdiv
  | 0x24 => formatPL w .cwld
  | 0x30 => formatZ w .sclr
  | 0x31 => formatZ w .msel
  | 0x32 => formatZ w .bclr
  | 0x33 => formatZ w .pkhdr
  | 0x34 => formatZ w .pknum
  | 0x35 => formatZ w .pkaln
  | 0x36 => formatZ w .pktrm
  | 0x37 => formatZ w .pkpad
  | 0x38 => formatZ w .pack
  | _ => none

/-- The number of a command's word: the column "word" of R84. -/
def encodeNat : Instr → Nat
  | .tinit => 0x01000000
  | .eclr => 0x02000000
  | .gfexp n => 0x10000000 + n.toNat
  | .gflog n => 0x11000000 + n.toNat
  | .gfmul x y => 0x12000000 + x.toNat * 2 ^ 8 + y.toNat
  | .pclr pd => 0x20000000 + pd.number * 2 ^ 16
  | .pmul pd pa pb => 0x21000000 + pd.number * 2 ^ 16 + pa.number * 2 ^ 8 + pb.number
  | .genp pd n => 0x22000000 + pd.number * 2 ^ 16 + n.toNat
  | .rsdiv pd pg pm => 0x23000000 + pd.number * 2 ^ 16 + pg.number * 2 ^ 8 + pm.number
  | .cwld pd off len => 0x24000000 + pd.number * 2 ^ 22 + off.toNat * 2 ^ 10 + len.toNat
  | .sclr => 0x30000000
  | .msel => 0x31000000
  | .bclr => 0x32000000
  | .pkhdr => 0x33000000
  | .pknum => 0x34000000
  | .pkaln => 0x35000000
  | .pktrm => 0x36000000
  | .pkpad => 0x37000000
  | .pack => 0x38000000

/-- The command word of a command (R84). -/
def encode (i : Instr) : Word := BitVec.ofNat 32 (encodeNat i)

/-- One row of R84's map: a word is the row's command when `(w and mask) = pattern`. -/
structure OpcodeRow where
  pattern : Word
  mask : Word
deriving DecidableEq, Repr

/-- The row of R84 (the columns "match" and "mask") that stands for a command. -/
def opcodeRow : Instr → OpcodeRow
  | .tinit => ⟨0x01000000, 0xFFFFFFFF⟩
  | .eclr => ⟨0x02000000, 0xFFFFFFFF⟩
  | .gfexp _ => ⟨0x10000000, 0xFFFFFF00⟩
  | .gflog _ => ⟨0x11000000, 0xFFFFFF00⟩
  | .gfmul _ _ => ⟨0x12000000, 0xFFFF0000⟩
  | .pclr _ => ⟨0x20000000, 0xFFFCFFFF⟩
  | .pmul _ _ _ => ⟨0x21000000, 0xFFFCFCFC⟩
  | .genp _ _ => ⟨0x22000000, 0xFFFCFF00⟩
  | .rsdiv _ _ _ => ⟨0x23000000, 0xFFFCFCFC⟩
  | .cwld _ _ _ => ⟨0x24000000, 0xFF000000⟩
  | .sclr => ⟨0x30000000, 0xFFFFFFFF⟩
  | .msel => ⟨0x31000000, 0xFFFFFFFF⟩
  | .bclr => ⟨0x32000000, 0xFFFFFFFF⟩
  | .pkhdr => ⟨0x33000000, 0xFFFFFFFF⟩
  | .pknum => ⟨0x34000000, 0xFFFFFFFF⟩
  | .pkaln => ⟨0x35000000, 0xFFFFFFFF⟩
  | .pktrm => ⟨0x36000000, 0xFFFFFFFF⟩
  | .pkpad => ⟨0x37000000, 0xFFFFFFFF⟩
  | .pack => ⟨0x38000000, 0xFFFFFFFF⟩

/-- The host's question: what the decoder reads from an instruction whose bits are `w`, of which the opcode table
gives `nbits`; the bits above are 0. A command is one 32-bit word delivered whole (R62, R80), so the word is
the number itself. -/
def decodeTableWord (nbits w : Nat) : Option Instr := decode (BitVec.ofNat 32 (w % 2 ^ nbits))

end Sys2Proof
end

