-- ==== Sys2Proof/Machine/State.lean ====
section
/-! DEFINITION. The state of the block (spec/10_state.md R20), the machine around it with its host's moves (spec/20_memory.md
R65, R70), the cells of the cell map (R51), the error codes (spec/60_exceptions.md R182), and the state after reset (R37). -/

namespace Sys2Proof.Machine

/-- The encoding mode, in the order of the enumeration that numbers the 2-bit register `MODE` (R27). -/
inductive Mode where
  | numeric
  | alphanumeric
  | byte
  | kanji
deriving DecidableEq, Repr

/-- The error codes (R182). -/
inductive ErrCode where
  /-- E_DOM: logarithm of zero (GFLOG). -/
  | dom
  /-- E_ILL: illegal command word (a CMD write). -/
  | ill
  /-- E_OPER: an operand breaks a precondition (PMUL, RSDIV, CWLD). -/
  | oper
  /-- E_LEN: the result would be longer than its destination (PMUL, GENP, PKHDR, PKNUM, PKALN). -/
  | len
  /-- E_MODE: packing in a mode whose packing is out of scope (PKHDR, PACK). -/
  | mode
  /-- E_CHAR: a character outside the payload packer's alphabet (PKNUM, PKALN). -/
  | char
  /-- E_CNT: the character count does not fit the indicator (PKHDR, PACK). -/
  | cnt
  /-- E_CAP: the bit stream is longer than the capacity (PKTRM, PKPAD, PACK). -/
  | cap
  /-- E_ACC: access against the access type or to an unmapped cell (a host read or write). -/
  | acc
  /-- E_FULL: push onto a full buffer (a write of SPUSH or PPUSH[k]). -/
  | full
deriving DecidableEq, Repr

/-- The cells of the cell map (R51). -/
inductive Cell where
  | cmd
  | status
  | errcode
  | errinfo
  | res
  | mode
  | ccb
  | dcw
  | slen
  | blen
  | spush
  | plen (k : PReg)
  | ppush (k : PReg)
  | pdat (k : PReg) (i : BitVec 8)
  | sdat (i : BitVec 13)
  | cwdat (i : BitVec 12)
deriving DecidableEq, Repr

/-- What the host can do (R70): `CellRead(a)` (R52), `CellWrite(a, v)` (R53), assert reset (R200). -/
inductive HostMove where
  | read (a : Addr)
  | write (a : Addr) (v : Word)
  | reset
deriving DecidableEq, Repr

/-- The contents of the two field tables `EXP` and `LOG` (R21, R22), as table construction gives them. -/
structure Tables where
  exp : List Byte
  log : List Byte
deriving DecidableEq, Repr

/-- The four polynomial registers `P[0]`..`P[3]` (R24). -/
structure PolyRegs where
  p0 : Poly
  p1 : Poly
  p2 : Poly
  p3 : Poly
deriving DecidableEq, Repr

/-- The whole state of the block (R20): the thirteen items of its table and nothing else, in the table's order. -/
structure Block where
  /-- `TINIT` (R23). -/
  tinit : Bool
  /-- `EXP`, the exponent table (R21): 256 entries (`State.WellSized` in Safety says so). -/
  exp : List Byte
  /-- `LOG`, the logarithm table (R22): 256 entries. -/
  log : List Byte
  /-- `RES` (R25). -/
  res : Byte
  /-- `P[0]`..`P[3]` (R24). -/
  polys : PolyRegs
  /-- `S`, the string buffer (R26). -/
  str : List Byte
  /-- `MODE` (R27). -/
  mode : Mode
  /-- `CCB` (R28). -/
  ccb : BitVec 5
  /-- `DCW` (R29). -/
  dcw : BitVec 12
  /-- `B`, the bit buffer (R30). -/
  bits : BitSeq
  /-- `ERR` (R31). -/
  err : Bool
  /-- `ERRCODE` (R32). -/
  errcode : Byte
  /-- `ERRINFO` (R33). -/
  errinfo : Word
deriving DecidableEq, Repr

/-- The block with its host's side of the port (log 1). The step function the host asks for has no other argument, so the
access that R65 makes an input of the step stands here, beside the block and not in it: the host's coming moves, and
what the last move returned. -/
structure State extends Block where
  /-- The host's coming moves, the next one first (log 1, DESIGN CHOICE). -/
  script : List HostMove
  /-- The value the move just performed returned, `none` for a write or a reset (log 1). -/
  reply : Option Word
deriving DecidableEq, Repr

/-- The two tables of a block, as the field functions take them. -/
def Block.tables (b : Block) : Tables := { exp := b.exp, log := b.log }

/-- The block never stops: every access has an outcome that is a state (R70, R184; log 7). So there is no fault. -/
inductive Fault where
deriving DecidableEq, Repr

/-- Reasons to refuse. -/
inductive Refusal where
  /-- Raised only by an arm of `exec` whose instruction has no meaning yet; no arm is left so. Safe. -/
  | notModelled (mnemonic : String)
deriving DecidableEq, Repr

/-- The tables before construction: R37 calls their contents "unspecified; unobservable until built"; zeros here (log 2,
DESIGN CHOICE, unsafe). -/
def Tables.unbuilt : Tables where
  exp := List.replicate 256 0
  log := List.replicate 256 0

/-- The block after reset (R37, R201). The tables are `Tables.unbuilt` (log 2). -/
def Block.reset : Block where
  tinit := false
  exp := Tables.unbuilt.exp
  log := Tables.unbuilt.log
  res := 0
  polys := { p0 := [], p1 := [], p2 := [], p3 := [] }
  str := []
  mode := .numeric
  ccb := 0
  dcw := 0
  bits := []
  err := false
  errcode := 0
  errinfo := 0

/-- The state after reset: the block after reset, and no coming move (log 1). -/
def State.reset : State where
  toBlock := Block.reset
  script := []
  reply := none

end Sys2Proof.Machine
end

