-- ==== Sys2Proof/Machine/Ops.lean ====
section
/-! DEFINITION. The shared operations: raising an error (the block's only exception) and its return, the outcome of a command
that fails, and bit sequences (spec/60_exceptions.md R181, R187; spec/44_system.md R170; spec/00_scope.md R6). -/

namespace Sys2Proof.Machine

/-- What a meaning answers. -/
abbrev Result := Host.Outcome State Fault Refusal

/-- The number of an error code (R182). -/
def ErrCode.code : ErrCode → Byte
  | .dom => 1
  | .ill => 2
  | .oper => 3
  | .len => 4
  | .mode => 5
  | .char => 6
  | .cnt => 7
  | .cap => 8
  | .acc => 9
  | .full => 10

/-- `raise E(info)` (R181): the first error is kept, and nothing but the three error items is written (R186). -/
def raise (e : ErrCode) (info : Word) (s : State) : State :=
  if s.err then s else { s with err := true, errcode := e.code, errinfo := info }

/-- The return from an error (R170, R187): the three error items are cleared and nothing is restored. -/
def clearError (s : State) : State := { s with err := false, errcode := 0, errinfo := 0 }

/-- A command ends with an error: its detail is the command word (R87, R183). -/
def failCommand (e : ErrCode) (i : Instr) (s : State) : Result := .next (raise e (encode i) s)

/-- `bits(v, n)` (R6): the `n` low bits of `v`, most significant first. -/
def bitsOf (v : Nat) : Nat → BitSeq
  | 0 => []
  | n + 1 => v.testBit n :: bitsOf v n

/-- `rep(0, n)` for bits (R6). -/
def zeroBits (n : Nat) : BitSeq := List.replicate n false

/-- The number a bit sequence denotes, first bit most significant. -/
def numberOf (b : BitSeq) : Nat := b.foldl (fun v x => 2 * v + x.toNat) 0

/-- `cw(b, i)` (R147, R59): the codeword `i` of `b`, missing bits read as 0. -/
def codeword (b : BitSeq) (i : Nat) : Byte :=
  BitVec.ofNat 8 (numberOf ((List.range 8).map fun j => b.getD (8 * i + j) false))

end Sys2Proof.Machine
end

