-- ==== Sys2Proof/Machine/Operands.lean ====
section
/-! DEFINITION. Operand access: the polynomial registers by designator (spec/10_state.md R24), the string's characters
(spec/43_bit_packer.md R140) and the numbers of the configuration registers (R28, R29). -/

namespace Sys2Proof.Machine

/-- `P[k]` (R24). -/
def PolyRegs.get (p : PolyRegs) : PReg → Poly
  | .p0 => p.p0
  | .p1 => p.p1
  | .p2 => p.p2
  | .p3 => p.p3

/-- `P[k] <- v`: the whole sequence is replaced (R24). -/
def PolyRegs.set (p : PolyRegs) (k : PReg) (v : Poly) : PolyRegs :=
  match k with
  | .p0 => { p with p0 := v }
  | .p1 => { p with p1 := v }
  | .p2 => { p with p2 := v }
  | .p3 => { p with p3 := v }

/-- `P[k]` of the state. -/
def State.poly (s : State) (k : PReg) : Poly := s.polys.get k

/-- `P[k] <- v` in the state. -/
def State.setPoly (s : State) (k : PReg) (v : Poly) : State := { s with polys := s.polys.set k v }

/-- A digit: a code 0x30..0x39 (R140). -/
def isDigit (c : Byte) : Bool := decide (0x30 ≤ c.toNat) && decide (c.toNat ≤ 0x39)

/-- `digit(c)` (R140), used on digits only. -/
def digit (c : Byte) : Nat := c.toNat - 0x30

/-- `aln(c)` (R140): the index in the 45-symbol alphabet, `none` where it is undefined. -/
def alnIndex (c : Byte) : Option Nat :=
  let n := c.toNat
  if isDigit c then some (n - 0x30)
  else if 0x41 ≤ n ∧ n ≤ 0x5A then some (n - 0x41 + 10)
  else
    match n with
    | 0x20 => some 36
    | 0x24 => some 37
    | 0x25 => some 38
    | 0x2A => some 39
    | 0x2B => some 40
    | 0x2D => some 41
    | 0x2E => some 42
    | 0x2F => some 43
    | 0x3A => some 44
    | _ => none

/-- A character of the alphanumeric alphabet (R140). -/
def isAln (c : Byte) : Bool := (alnIndex c).isSome

/-- `aln(c)` as a number, used on characters of the alphabet only (R143). -/
def aln (c : Byte) : Nat := (alnIndex c).getD 0

/-- The number of `CCB` (R28). -/
def State.countBits (s : State) : Nat := s.ccb.toNat

/-- `8*DCW`, the capacity of the bit stream in bits (R29). -/
def State.capacity (s : State) : Nat := 8 * s.dcw.toNat

end Sys2Proof.Machine
end

