-- ==== Sys2Proof/Machine/Packer.lean ====
section
/-! DEFINITION. Mode Selector & Bit Packer: SCLR, MSEL, BCLR, PKHDR, PKNUM, PKALN, PKTRM, PKPAD, PACK
(spec/43_bit_packer.md). -/

namespace Sys2Proof.Machine

/-- `classify(s)` (R141). -/
def classify (s : List Byte) : Mode :=
  if s.all isDigit then .numeric else if s.all isAln then .alphanumeric else .byte

/-- `pack_numeric(s)` (R142), for digits only. -/
def packNumeric : List Byte → BitSeq
  | a :: b :: c :: rest => bitsOf (100 * digit a + 10 * digit b + digit c) 10 ++ packNumeric rest
  | [a, b] => bitsOf (10 * digit a + digit b) 7
  | [a] => bitsOf (digit a) 4
  | [] => []

/-- `numbits(L)` (R142). -/
def numericLength (n : Nat) : Nat :=
  10 * (n / 3) + (if n % 3 = 2 then 7 else if n % 3 = 1 then 4 else 0)

/-- `pack_alnum(s)` (R143), for characters of the alphabet only: the form is chosen by the group's length. -/
def packAlnum : List Byte → BitSeq
  | a :: b :: rest => bitsOf (45 * aln a + aln b) 11 ++ packAlnum rest
  | [a] => bitsOf (aln a) 6
  | [] => []

/-- `alnbits(L)` (R143). -/
def alnumLength (n : Nat) : Nat := 11 * (n / 2) + 6 * (n % 2)

/-- The mode indicator (R144); the modes whose packing is out of scope have none (R151, D16, D20). -/
def Mode.indicator : Mode → Option (BitVec 4)
  | .numeric => some Config.modeIndNumeric
  | .alphanumeric => some Config.modeIndAlphanumeric
  | .byte => none
  | .kanji => none

/-- `header(m, c, n)` (R144), the mode given by its indicator. -/
def header (ind : BitVec 4) (c n : Nat) : BitSeq := bitsOf ind.toNat Config.modeBits ++ bitsOf n c

/-- `terminate(b, d)` (R145). -/
def terminate (b : BitSeq) (d : Nat) : BitSeq := b ++ zeroBits (min Config.termMax (8 * d - b.length))

/-- `n` pad bytes, the first of them the one of index `k` in the alternation (R146). -/
def padBytes : (k n : Nat) → BitSeq
  | _, 0 => []
  | k, n + 1 => bitsOf (if k % 2 = 0 then Config.pad0 else Config.pad1).toNat 8 ++ padBytes (k + 1) n

/-- `b` filled with zero bits to the next byte boundary (R146). -/
def alignToByte (b : BitSeq) : BitSeq := b ++ zeroBits ((8 - b.length % 8) % 8)

/-- `pad(b, d)` (R146): after the boundary zeros, `d - len/8` pad bytes. -/
def padTo (b : BitSeq) (d : Nat) : BitSeq :=
  alignToByte b ++ padBytes 0 (d - (alignToByte b).length / 8)

/-- SCLR (R148). -/
def execSclr (s : State) : Result := .next { s with str := [] }

/-- MSEL (R149). -/
def execMsel (s : State) : Result := .next { s with mode := classify s.str }

/-- BCLR (R150). -/
def execBclr (s : State) : Result := .next { s with bits := [] }

/-- PKHDR (R151). -/
def execPkhdr (s : State) : Result :=
  match s.mode.indicator with
  | none => failCommand .mode .pkhdr s
  | some ind =>
    if s.str.length ≥ 2 ^ s.countBits then failCommand .cnt .pkhdr s
    else if s.bits.length + 4 + s.countBits > Config.bmax then failCommand .len .pkhdr s
    else .next { s with bits := s.bits ++ header ind s.countBits s.str.length }

/-- PKNUM (R152). -/
def execPknum (s : State) : Result :=
  if ¬ s.str.all isDigit then failCommand .char .pknum s
  else if s.bits.length + numericLength s.str.length > Config.bmax then failCommand .len .pknum s
  else .next { s with bits := s.bits ++ packNumeric s.str }

/-- PKALN (R153). -/
def execPkaln (s : State) : Result :=
  if ¬ s.str.all isAln then failCommand .char .pkaln s
  else if s.bits.length + alnumLength s.str.length > Config.bmax then failCommand .len .pkaln s
  else .next { s with bits := s.bits ++ packAlnum s.str }

/-- PKTRM (R154). -/
def execPktrm (s : State) : Result :=
  if s.bits.length > s.capacity then failCommand .cap .pktrm s
  else .next { s with bits := terminate s.bits s.dcw.toNat }

/-- PKPAD (R155). -/
def execPkpad (s : State) : Result :=
  if s.bits.length > s.capacity then failCommand .cap .pkpad s
  else .next { s with bits := padTo s.bits s.dcw.toNat }

/-- The payload of a string in the mode of its classification (R156). -/
def payload (m : Mode) (s : List Byte) : BitSeq := if m = .numeric then packNumeric s else packAlnum s

/-- PACK (R156). -/
def execPack (s : State) : Result :=
  let m := classify s.str
  match m.indicator with
  | none => failCommand .mode .pack s
  | some ind =>
    if s.str.length ≥ 2 ^ s.countBits then failCommand .cnt .pack s
    else
      let h := header ind s.countBits s.str.length ++ payload m s.str
      if h.length > s.capacity then failCommand .cap .pack s
      else .next { s with mode := m, bits := padTo (terminate h s.dcw.toNat) s.dcw.toNat }

end Sys2Proof.Machine
end

