-- ==== Sys2Proof/Machine/Flags.lean ====
section
/-! DEFINITION. The block's two flags: the STATUS word and the initialisation guard that sets `TINIT` (spec/10_state.md R23,
R31; spec/41_field_engine.md R105). `ERR` is set and cleared by `raise` and `clearError` (Ops). -/

namespace Sys2Proof.Machine

/-- The STATUS cell (R31): bit 0 is `ERR`, bit 1 is `TINIT`. -/
def statusBits (s : State) : BitVec 2 := BitVec.ofNat 2 (s.err.toNat + 2 * s.tinit.toNat)

/-- `UseTables` (R105) and the command TINIT (R106): with `TINIT` = 0 the tables are built and `TINIT` is set;
with `TINIT` = 1 nothing changes. -/
def useTables (s : State) : State :=
  if s.tinit then s else { s with exp := (buildTables s.tables).exp, log := (buildTables s.tables).log, tinit := true }

end Sys2Proof.Machine
end

