-- ==== Sys2Proof/Machine/Field.lean ====
section
/-! DEFINITION. Field Arithmetic Engine: TINIT, GFEXP, GFLOG, GFMUL (spec/41_field_engine.md). -/

namespace Sys2Proof.Machine

/-- `EXP[i]`. -/
def Tables.expAt (t : Tables) (i : Nat) : Byte := t.exp.getD i 0

/-- `LOG[i]`. -/
def Tables.logAt (t : Tables) (i : Nat) : Byte := t.log.getD i 0

/-- `gf_exp(n)` (R101). -/
def gfExp (t : Tables) (n : Byte) : Byte := t.expAt n.toNat

/-- `gf_log(n)` (R102): `none` is the DomainError at 0. -/
def gfLog (t : Tables) (n : Byte) : Option Byte := if n = 0 then none else some (t.logAt n.toNat)

/-- `gf_mul(x, y)` (R103): the zero test first, then the sum of the logarithms taken mod 255. -/
def gfMul (t : Tables) (x y : Byte) : Byte :=
  if x = 0 ∨ y = 0 then 0
  else t.expAt (((t.logAt x.toNat).toNat + (t.logAt y.toNat).toNat) % 255)

/-- TINIT (R106). -/
def execTinit (s : State) : Result := .next (useTables s)

/-- GFEXP n (R107). -/
def execGfexp (n : Byte) (s : State) : Result :=
  let s := useTables s
  .next { s with res := gfExp s.tables n }

/-- GFLOG n (R108). -/
def execGflog (n : Byte) (s : State) : Result :=
  match gfLog (useTables s).tables n with
  | none => failCommand .dom (.gflog n) s
  | some r => .next { useTables s with res := r }

/-- GFMUL x, y (R109). -/
def execGfmul (x y : Byte) (s : State) : Result :=
  let s := useTables s
  .next { s with res := gfMul s.tables x y }

end Sys2Proof.Machine
end

