-- ==== Sys2Proof/Machine/ReedSolomon.lean ====
section
/-! DEFINITION. Reed-Solomon Encoder: PCLR, PMUL, GENP, RSDIV, CWLD (spec/42_reed_solomon.md). -/

namespace Sys2Proof.Machine

/-- The terms `gf_mul(p[i], q[k-i])` of coefficient `k` of a product (R121). -/
def productTerms (t : Tables) (p q : Poly) (k : Nat) : List Byte :=
  (List.range p.length).map fun i =>
    if i ≤ k ∧ k - i < q.length then gfMul t (p.getD i 0) (q.getD (k - i) 0) else 0

/-- The field sum of a list: xor over all its elements (R8). -/
def fieldSum (l : List Byte) : Byte := l.foldl (· ^^^ ·) 0

/-- `poly_mul(p, q)` (R121). -/
def polyMul (t : Tables) (p q : Poly) : Poly :=
  (List.range (p.length + q.length - 1)).map fun k => fieldSum (productTerms t p q k)

/-- `gen_poly(n)` (R122). -/
def genPoly (t : Tables) : Nat → Poly
  | 0 => [1]
  | n + 1 => polyMul t (genPoly t n) [1, gfExp t (BitVec.ofNat 8 n)]

/-- `w[k] <- w[k] xor s[k]` for the indices of `s`. -/
def xorPrefix : Poly → Poly → Poly
  | a :: w, b :: s => (a ^^^ b) :: xorPrefix w s
  | w, _ => w

/-- One step of the long division (R123): scale the generator by the leading coefficient, xor it in, drop the
leading term. -/
def divideStep (t : Tables) (g w : Poly) : Poly :=
  (xorPrefix w (g.map fun c => gfMul t c (w.headD 0))).tail

/-- The division loop of R123. -/
def divideLoop (t : Tables) (g : Poly) : Nat → Poly → Poly
  | 0, w => w
  | n + 1, w => divideLoop t g n (divideStep t g w)

/-- `rs_divide(g, m)` (R123): as many steps as the message has coefficients. -/
def rsDivide (t : Tables) (g m : Poly) : Poly :=
  divideLoop t g m.length (m ++ List.replicate (g.length - 1) 0)

/-- PCLR pd (R125). -/
def execPclr (pd : PReg) (s : State) : Result := .next (s.setPoly pd [])

/-- PMUL pd, pa, pb (R126). -/
def execPmul (pd pa pb : PReg) (s : State) : Result :=
  let a := s.poly pa
  let b := s.poly pb
  if a.length = 0 ∨ b.length = 0 then failCommand .oper (.pmul pd pa pb) s
  else if a.length + b.length - 1 > Config.pmax then failCommand .len (.pmul pd pa pb) s
  else
    let s := useTables s
    .next (s.setPoly pd (polyMul s.tables a b))

/-- GENP pd, n (R127). -/
def execGenp (pd : PReg) (n : Byte) (s : State) : Result :=
  if n.toNat + 1 > Config.pmax then failCommand .len (.genp pd n) s
  else
    let s := useTables s
    .next (s.setPoly pd (genPoly s.tables n.toNat))

/-- RSDIV pd, pg, pm (R128). -/
def execRsdiv (pd pg pm : PReg) (s : State) : Result :=
  let g := s.poly pg
  let m := s.poly pm
  match g.head? with
  | none => failCommand .oper (.rsdiv pd pg pm) s
  | some lead =>
    if lead ≠ 1 then failCommand .oper (.rsdiv pd pg pm) s
    else
      let s := useTables s
      .next (s.setPoly pd (rsDivide s.tables g m))

/-- CWLD pd, off, len (R129). -/
def execCwld (pd : PReg) (off : BitVec 12) (len : BitVec 10) (s : State) : Result :=
  if 8 * (off.toNat + len.toNat) > s.bits.length then failCommand .oper (.cwld pd off len) s
  else .next (s.setPoly pd ((List.range len.toNat).map fun t => codeword s.bits (off.toNat + t)))

end Sys2Proof.Machine
end

