-- ==== Sys2Proof/Machine/System.lean ====
section
/-! DEFINITION. The system command ECLR (spec/44_system.md). -/

namespace Sys2Proof.Machine

/-- ECLR (R170): the return from an error. -/
def execEclr (s : State) : Result := .next (clearError s)

end Sys2Proof.Machine
end

