-- ==== Sys2Proof/Machine/Dispatch.lean ====
section
/-! DEFINITION. One arm per command: the pseudocode of its rule, as a command that is executed (spec/30_encoding.md R87). The
freeze (R53 step 1, R184) is the port's (Machine/Port.lean), which alone calls exec. -/

namespace Sys2Proof.Machine

def exec (i : Instr) (s : State) : Host.Outcome State Fault Refusal :=
  match i with
  | .tinit => Sys2Proof.Machine.execTinit s
  | .eclr => Sys2Proof.Machine.execEclr s
  | .gfexp n => Sys2Proof.Machine.execGfexp n s
  | .gflog n => Sys2Proof.Machine.execGflog n s
  | .gfmul x y => Sys2Proof.Machine.execGfmul x y s
  | .pclr pd => Sys2Proof.Machine.execPclr pd s
  | .pmul pd pa pb => Sys2Proof.Machine.execPmul pd pa pb s
  | .genp pd n => Sys2Proof.Machine.execGenp pd n s
  | .rsdiv pd pg pm => Sys2Proof.Machine.execRsdiv pd pg pm s
  | .cwld pd off len => Sys2Proof.Machine.execCwld pd off len s
  | .sclr => Sys2Proof.Machine.execSclr s
  | .msel => Sys2Proof.Machine.execMsel s
  | .bclr => Sys2Proof.Machine.execBclr s
  | .pkhdr => Sys2Proof.Machine.execPkhdr s
  | .pknum => Sys2Proof.Machine.execPknum s
  | .pkaln => Sys2Proof.Machine.execPkaln s
  | .pktrm => Sys2Proof.Machine.execPktrm s
  | .pkpad => Sys2Proof.Machine.execPkpad s
  | .pack => Sys2Proof.Machine.execPack s

end Sys2Proof.Machine
end

