-- ==== Sys2Proof/Machine/Port.lean ====
section
/-! DEFINITION. The host port: the cell map, reading and writing cells, reset, and one host move (spec/20_memory.md R51 to
R61; spec/30_encoding.md R87; spec/70_reset_and_hazards.md R200, R201). -/

namespace Sys2Proof.Machine

/-- The cell an address names, `none` for an unmapped address (R51). -/
def cellOf (a : Addr) : Option Cell :=
  let n := a.toNat
  if 0x0010 ≤ n ∧ n ≤ 0x0013 then some (.plen (PReg.ofBits (BitVec.ofNat 2 (n - 0x0010))))
  else if 0x0014 ≤ n ∧ n ≤ 0x0017 then some (.ppush (PReg.ofBits (BitVec.ofNat 2 (n - 0x0014))))
  else if 0x0400 ≤ n ∧ n ≤ 0x07FF then
    some (.pdat (PReg.ofBits (BitVec.ofNat 2 ((n - 0x0400) / 0x100))) (BitVec.ofNat 8 (n % 0x100)))
  else if 0x2000 ≤ n ∧ n ≤ 0x3FFF then some (.sdat (BitVec.ofNat 13 (n - 0x2000)))
  else if 0x4000 ≤ n ∧ n ≤ 0x4FFF then some (.cwdat (BitVec.ofNat 12 (n - 0x4000)))
  else
    match n with
    | 0x0000 => some .cmd
    | 0x0001 => some .status
    | 0x0002 => some .errcode
    | 0x0003 => some .errinfo
    | 0x0004 => some .res
    | 0x0005 => some .mode
    | 0x0006 => some .ccb
    | 0x0007 => some .dcw
    | 0x0008 => some .slen
    | 0x0009 => some .blen
    | 0x000A => some .spush
    | _ => none

/-- The address of a cell (R51). -/
def Cell.addr : Cell → Addr
  | .cmd => 0x0000
  | .status => 0x0001
  | .errcode => 0x0002
  | .errinfo => 0x0003
  | .res => 0x0004
  | .mode => 0x0005
  | .ccb => 0x0006
  | .dcw => 0x0007
  | .slen => 0x0008
  | .blen => 0x0009
  | .spush => 0x000A
  | .plen k => BitVec.ofNat 16 (0x0010 + k.number)
  | .ppush k => BitVec.ofNat 16 (0x0014 + k.number)
  | .pdat k i => BitVec.ofNat 16 (0x0400 + 0x100 * k.number + i.toNat)
  | .sdat i => BitVec.ofNat 16 (0x2000 + i.toNat)
  | .cwdat i => BitVec.ofNat 16 (0x4000 + i.toNat)

/-- The number of a mode in the register `MODE` (R27). -/
def Mode.code : Mode → BitVec 2
  | .numeric => 0
  | .alphanumeric => 1
  | .byte => 2
  | .kanji => 3

/-- A cell's content, zero-extended (R51, R57, R58, R59, R61); `none` for the W cells. -/
def cellContent (s : State) : Cell → Option Word
  | .status => some ((statusBits s).setWidth 32)
  | .errcode => some (s.errcode.setWidth 32)
  | .errinfo => some s.errinfo
  | .res => some (s.res.setWidth 32)
  | .mode => some (s.mode.code.setWidth 32)
  | .ccb => some (s.ccb.setWidth 32)
  | .dcw => some (s.dcw.setWidth 32)
  | .slen => some ((BitVec.ofNat 14 s.str.length).setWidth 32)
  | .blen => some ((BitVec.ofNat 16 s.bits.length).setWidth 32)
  | .plen k => some ((BitVec.ofNat 9 (s.poly k).length).setWidth 32)
  | .pdat k i => some (((s.poly k).getD i.toNat 0).setWidth 32)
  | .sdat i => some ((s.str.getD i.toNat 0).setWidth 32)
  | .cwdat i => some ((codeword s.bits i.toNat).setWidth 32)
  | .cmd | .spush | .ppush _ => none

/-- What `CellRead(a)` finds: the content of a readable mapped cell (R52, R54). -/
def readable (a : Addr) (s : State) : Option Word := (cellOf a).bind (cellContent s)

/-- E_ACC for an address (R52, R53, R183). -/
def accessError (a : Addr) (s : State) : State := raise .acc (a.setWidth 32) s

/-- `CellRead(a)` (R52): the value returned and the state it leaves. -/
def cellRead (a : Addr) (s : State) : Word × State :=
  match readable a s with
  | some v => (v, s)
  | none => (0, accessError a s)

/-- A CMD write with `ERR` = 0 (R87). -/
def runWord (w : Word) (s : State) : Result :=
  match decode w with
  | none => .next (raise .ill w s)
  | some i => exec i s

/-- A write of `v` to SPUSH with `ERR` = 0 (R56). -/
def pushChar (a : Addr) (v : Word) (s : State) : State :=
  if s.str.length = Config.smax then raise .full (a.setWidth 32) s
  else { s with str := s.str ++ [v.setWidth 8] }

/-- A write of `v` to PPUSH[k] with `ERR` = 0 (R55). -/
def pushCoeff (a : Addr) (k : PReg) (v : Word) (s : State) : State :=
  if (s.poly k).length = Config.pmax then raise .full (a.setWidth 32) s
  else s.setPoly k (s.poly k ++ [v.setWidth 8])

/-- The effect of a write of `v` to the cell `c` at address `a`, with `ERR` = 0 (R53 steps 2 and 3, R60). -/
def cellEffect (a : Addr) (c : Cell) (v : Word) (s : State) : Result :=
  match c with
  | .cmd => runWord v s
  | .ccb => .next { s with ccb := v.setWidth 5 }
  | .dcw => .next { s with dcw := v.setWidth 12 }
  | .spush => .next (pushChar a v s)
  | .ppush k => .next (pushCoeff a k v s)
  | .status | .errcode | .errinfo | .res | .mode | .slen | .blen | .plen _ | .pdat _ _ | .sdat _ | .cwdat _ =>
    .next (accessError a s)

/-- The one write that is not ignored while an error is pending: the exact ECLR word to CMD (R53 step 1, R184). -/
def isAcknowledge (a : Addr) (v : Word) : Bool := a == 0 && v == 0x02000000

/-- `CellWrite(a, v)` (R53): the freeze first, then the access right, then the cell's effect. -/
def cellWrite (a : Addr) (v : Word) (s : State) : Result :=
  if s.err then (if isAcknowledge a v then exec .eclr s else .next s)
  else
    match cellOf a with
    | none => .next (accessError a s)
    | some c => cellEffect a c v s

/-- Reset (R200, R201): every item of the block's state at its value of R37; the host's coming moves are the
host's and stay. -/
def resetBlock (s : State) : State := { s with toBlock := Block.reset, reply := none }

/-- One host move (R70); the reply is the value a read returns. -/
def perform (m : HostMove) (s : State) : Result :=
  match m with
  | .read a => .next { (cellRead a s).2 with reply := some (cellRead a s).1 }
  | .write a v => cellWrite a v { s with reply := none }
  | .reset => .next (resetBlock s)

/-- The step relation as R65 puts it: the next host access is its input, the block its state, and the value returned its
output. Every step that has a coming move is this one (the obligation StepIsTheBlocksAccess). -/
def Block.access (m : HostMove) (b : Block) : Host.Outcome (Block × Option Word) Fault Refusal :=
  match perform m { toBlock := b, script := [], reply := none } with
  | .next t => .next (t.toBlock, t.reply)
  | .fault e => .fault e
  | .refused r => .refused r

/-- The next move taken from the host's script. With none the block is idle and nothing changes (R191). -/
def takeMove (s : State) : Result :=
  match s.script with
  | [] => .next s
  | m :: rest => perform m { s with script := rest }

/-- The command word `w` (of which the table gives `nbits` bits, the rest 0) put first in the host's script as a
write to CMD. -/
def scheduleWord (nbits w : Nat) (s : State) : State :=
  { s with script := .write 0 (BitVec.ofNat 32 (w % 2 ^ nbits)) :: s.script }

end Sys2Proof.Machine
end

