-- ==== Sys2Proof/Machine/Step.lean ====
section
/-! DEFINITION. One transition of the block: the next host access, whole (spec/20_memory.md R64, R65). -/

namespace Sys2Proof.Machine

/-- One step: the host's next move is performed (log 1). -/
def step (s : State) : Host.Outcome State Fault Refusal := takeMove s

/-- `s` with the command word as the host's very next write to CMD. The block fetches nothing (R34, R67): a
command runs because the host writes it (log 1). Nothing else is changed; in particular a pending error stays,
and a frozen block ignores the word unless it is ECLR's (R184). -/
def State.withFetchWord (s : State) (nbits w : Nat) : State := scheduleWord nbits w s

end Sys2Proof.Machine
end

