-- ==== Sys2Proof/Machine/Script.lean ====
section
/-! DEFINITION. Host scripts: the lines in which the spec writes a host's accesses, and their expansion into host moves
(spec/30_encoding.md R88, R89). -/

namespace Sys2Proof.Machine

/-- A line of a script: the statements of R88 and the pseudo-instructions of R89. -/
inductive ScriptLine where
  /-- `WR cell, value`. -/
  | wr (c : Cell) (v : Word)
  /-- `RD cell`. -/
  | rd (c : Cell)
  /-- A command line. -/
  | command (i : Instr)
  /-- `.poly Pk, c0, ..., cm`. -/
  | loadPoly (k : PReg) (cs : List Byte)
  /-- `.str "text"`, the text as its character codes. -/
  | loadStr (codes : List Byte)
  /-- `.cfg ccb, dcw`. -/
  | config (ccb dcw : Word)
  /-- `RSENC Pd, Pm, n`. -/
  | rsenc (pd pm : PReg) (n : Byte)
deriving DecidableEq, Repr

/-- A command line stands for a write of its word to CMD (R88). -/
def issue (i : Instr) : HostMove := .write Cell.cmd.addr (encode i)

/-- A push of one byte to a push cell. -/
def pushMove (c : Cell) (v : Byte) : HostMove := .write c.addr (v.setWidth 32)

/-- The host moves a script line stands for (R88, R89). -/
def ScriptLine.moves : ScriptLine → List HostMove
  | .wr c v => [.write c.addr v]
  | .rd c => [.read c.addr]
  | .command i => [issue i]
  | .loadPoly k cs => issue (.pclr k) :: cs.map (pushMove (.ppush k))
  | .loadStr codes => issue .sclr :: codes.map (pushMove .spush)
  | .config ccb dcw => [.write Cell.ccb.addr ccb, .write Cell.dcw.addr dcw]
  | .rsenc pd pm n => [issue (.genp pd n), issue (.rsdiv pd pd pm)]

/-- The host moves of a whole script, line after line. -/
def scriptMoves (lines : List ScriptLine) : List HostMove := lines.flatMap ScriptLine.moves

end Sys2Proof.Machine
end

