-- ==== Sys2Proof/Safety.lean ====
section
/-! DEFINITION. What a safe state is (the invariants of spec/10_state.md R38 and R23), and the reference functions that
claims compare the model with: the carry-less product of spec/41_field_engine.md R104 (c), polynomial evaluation,
and the access rights of R51. -/

namespace Sys2Proof.Machine

/-- The lengths of R38, and the tables' 256 entries (R20). -/
structure State.WellSized (s : State) : Prop where
  polys : ∀ k, (s.poly k).length ≤ Config.pmax
  str : s.str.length ≤ Config.smax
  bits : s.bits.length ≤ Config.bmax
  exp : s.exp.length = 256
  log : s.log.length = 256

/-- Tables with the content of R21 and R22; `LOG[0]` has none. -/
structure Tables.Built (t : Tables) : Prop where
  exp : t.exp = builtExp
  log : t.log.tail = builtLogFrom1

/-- `TINIT` = 1 says that the tables have been built (R23). -/
def State.TablesReady (s : State) : Prop := s.tinit = true → s.tables.Built

/-- The error items agree (R31 to R33, R38). -/
structure State.ErrorConsistent (s : State) : Prop where
  none_pending : s.err = false → s.errcode = 0 ∧ s.errinfo = 0
  pending : s.err = true → 1 ≤ s.errcode.toNat ∧ s.errcode.toNat ≤ 10

/-- The invariant of the block (R38, R23). -/
structure State.Inv (s : State) : Prop where
  sized : s.WellSized
  tables : s.TablesReady
  error : s.ErrorConsistent
  mode : s.mode ≠ .kanji

/-- Doubling in GF(256) on bits: shift, and reduce by 0x11D when bit 7 falls out (R8, R100). -/
def timesX (a : Byte) : Byte := if a.msb then (a <<< 1) ^^^ 0x1D else a <<< 1

/-- The carry-less product of `x` and the `n` low bits of `y`, reduced modulo 0x11D, by shift and xor (R104 (c)):
`y` is its bit 0 plus 2 times the rest. It uses no table. -/
def carrylessMul (x y : Byte) : Nat → Byte
  | 0 => 0
  | n + 1 => timesX (carrylessMul x (y >>> 1) n) ^^^ (if y.getLsbD 0 then x else 0)

/-- The product in GF(2)[x]/(0x11D) (R104 (c)). -/
def fieldMul (x y : Byte) : Byte := carrylessMul x y 8

/-- 2 to the power `n` in GF(256) (R21). -/
def fieldPow2 : Nat → Byte
  | 0 => 1
  | n + 1 => timesX (fieldPow2 n)

/-- `x + y` of a list in GF(256). -/
def sumOf (l : List Byte) : Byte := l.foldl (· ^^^ ·) 0

/-- The product of two polynomials by the carry-less product (R121, R104 (c)): coefficient `k` is the sum of
`p[i] * q[k-i]`, an absent coefficient counting as 0. -/
def refMul (p q : Poly) : Poly :=
  (List.range (p.length + q.length - 1)).map fun k =>
    sumOf ((List.range (k + 1)).map fun i => fieldMul (p.getD i 0) (q.getD (k - i) 0))

/-- The product of the linear factors `x - 2^i`, `i < n` (R122). -/
def refGen : Nat → Poly
  | 0 => [1]
  | n + 1 => refMul (refGen n) [1, fieldPow2 n]

/-- The value of a polynomial at `x` by Horner's rule (R124 (f)). -/
def refEval (p : Poly) (x : Byte) : Byte := p.foldl (fun acc c => fieldMul acc x ^^^ c) 0

/-- The alphanumeric alphabet in the order of its listing (R140). -/
def alphabet : List Byte :=
  "0123456789ABCDEFGHIJKLMNOPQRSTUVWXYZ $%*+-./:".toList.map fun c => BitVec.ofNat 8 c.toNat

/-- The digits (R140). -/
def digits : List Byte := alphabet.take 10

/-- The number `sum over j in 0..7 of bit(8*i + j) * 2^(7-j)`, a bit beyond the sequence counting as 0 (R59, R147). -/
def codewordSum (b : BitSeq) (i : Nat) : Nat := ∑ j ∈ Finset.range 8, (b.getD (8 * i + j) false).toNat * 2 ^ (7 - j)

/-- The number of the bits `n` to `n + k - 1` of a sequence, first bit most significant (R5, R6). -/
def bitsNumber (b : BitSeq) (n k : Nat) : Nat := numberOf ((b.drop n).take k)

/-- The seven commands that build the tables when they are not built: TINIT (R106) and the six under the guard (R105). -/
def buildsTables : Instr → Bool
  | .tinit | .gfexp _ | .gflog _ | .gfmul _ _ | .pmul _ _ _ | .genp _ _ | .rsdiv _ _ _ => true
  | .eclr | .pclr _ | .cwld _ _ _ | .sclr | .msel | .bclr | .pkhdr | .pknum | .pkaln | .pktrm | .pkpad | .pack => false

/-- The codes a command can raise (R182, column "who", with the decided PMAX). -/
def mayRaise : Instr → List Byte
  | .gflog n => if n = 0 then [1] else []
  | .pmul _ _ _ => [3, 4]
  | .rsdiv _ _ _ => [3]
  | .cwld _ _ _ => [3]
  | .pkhdr => [5, 7, 4]
  | .pknum | .pkaln => [6, 4]
  | .pktrm | .pkpad => [8]
  | .pack => [5, 7, 8]
  | .tinit | .eclr | .gfexp _ | .gfmul _ _ | .pclr _ | .genp _ _ | .sclr | .msel | .bclr => []

/-- The host's six step commands that pack a string (R157), run one after the other; PKNUM or PKALN by `MODE`. -/
def packStep (r : Host.Outcome State Fault Refusal) (i : State → Instr) : Host.Outcome State Fault Refusal :=
  match r with
  | .next s => exec (i s) s
  | .fault e => .fault e
  | .refused e => .refused e

def packBySteps (s : State) : Host.Outcome State Fault Refusal :=
  let payloadCommand (t : State) : Instr := if t.mode = .numeric then .pknum else .pkaln
  packStep (packStep (packStep (packStep (packStep (exec .msel s) fun _ => .bclr) fun _ => .pkhdr) payloadCommand)
    fun _ => .pktrm) fun _ => .pkpad

/-- The cells of access W (R51, R54). -/
def Cell.writeOnly : Cell → Bool
  | .cmd | .spush | .ppush _ => true
  | .status | .errcode | .errinfo | .res | .mode | .ccb | .dcw | .slen | .blen | .plen _ | .pdat _ _ | .sdat _
  | .cwdat _ => false

/-- The cells of access W or RW (R51, R54). -/
def Cell.writable : Cell → Bool
  | .cmd | .spush | .ppush _ | .ccb | .dcw => true
  | .status | .errcode | .errinfo | .res | .mode | .slen | .blen | .plen _ | .pdat _ _ | .sdat _ | .cwdat _ => false

end Sys2Proof.Machine
end

