-- ==== Sys2Proof/Certificates/Slice0/Obligations.lean ====
section
/-! DEFINITION. The statements for the provers. Each says in its docstring which rules of spec/ it formalises. -/

open Sys2Proof Sys2Proof.Machine

-- Encoding

/-- Decoding the word of a command gives the command back, with every operand (R81 to R84). -/
def Obligations.DecodeInvertsEncode : Prop :=
  ∀ i : Instr, i.wellFormed = true → decode (encode i) = some i

/-- R83: a word is a command exactly when `(w and mask) = match` for a row of R84 and, for CWLD, `w[9:0] ≤ 256`; the
command is the row's, and its fields are the word's (encoding it gives the word back). -/
def Obligations.DecodeFollowsOpcodeMap : Prop :=
  ∀ w : Word,
    (∀ i, decode w = some i →
      w &&& (opcodeRow i).mask = (opcodeRow i).pattern ∧ i.wellFormed = true ∧ encode i = w) ∧
    (∀ i, w &&& (opcodeRow i).mask = (opcodeRow i).pattern →
      ((opcodeRow i).pattern = 0x24000000 → w.toNat % 1024 ≤ 256) →
      ∃ j, decode w = some j ∧ opcodeRow j = opcodeRow i)

/-- Words the spec prints, decoded (95_test_vectors section 6, R84 to R85, R107, R108, R126 to R129). -/
def Obligations.PrintedWordsDecode : Prop :=
  decode 0x01000000 = some .tinit ∧ decode 0x02000000 = some .eclr ∧ decode 0x10000019 = some (.gfexp 25) ∧
  decode 0x11000003 = some (.gflog 3) ∧ decode 0x120053CA = some (.gfmul 0x53 0xCA) ∧
  decode 0x20020000 = some (.pclr .p2) ∧ decode 0x21000102 = some (.pmul .p0 .p1 .p2) ∧
  decode 0x220300FF = some (.genp .p3 255) ∧ decode 0x23020001 = some (.rsdiv .p2 .p0 .p1) ∧
  decode 0x24400010 = some (.cwld .p1 0 16) ∧ decode 0x24FFFD00 = some (.cwld .p3 4095 256) ∧
  decode 0x38000000 = some .pack ∧ decode 0x00000000 = none ∧ decode 0xFFFFFFFF = none ∧
  decode 0x02000001 = none ∧ decode 0x21000400 = none ∧ decode 0x24000101 = none

-- The port

/-- A CMD write with `ERR` = 0 runs the decoded command, and an illegal word raises E_ILL with the word as detail
(R87, R53). What the step adds: the move leaves the script and the reply is empty (log 1). -/
def Obligations.StepRunsTheWrittenCommand : Prop :=
  ∀ (s : State) (w : Word), s.err = false →
    (∀ rest, s.script = .write 0 w :: rest →
      (∀ i, decode w = some i → step s = exec i { s with script := rest, reply := none }) ∧
      (decode w = none → step s = .next (raise .ill w { s with script := rest, reply := none }))) ∧
    (∀ i, decode w = some i → step (s.withFetchWord 32 w.toNat) = exec i { s with reply := none })

/-- A step performs the first of the host's coming moves: a read returns what `CellRead` returns, a write does what
`CellWrite` does (R65, R70). The list of coming moves and the reply field are the model's own (log 1). -/
def Obligations.StepPerformsTheNextMove : Prop :=
  ∀ (s : State) (a : Addr) (rest : List HostMove),
    (s.script = .read a :: rest → step s = .next { (cellRead a { s with script := rest }).2 with
      reply := some (cellRead a { s with script := rest }).1 }) ∧
    (∀ v, s.script = .write a v :: rest → step s = cellWrite a v { s with script := rest, reply := none })

/-- R184: while an error is pending the exact ECLR word to CMD executes ECLR, every other write is ignored, a read of a
readable cell works as usual, and a read of an unreadable cell returns 0 and changes nothing. -/
def Obligations.FrozenBlockOnlyAcknowledges : Prop :=
  ∀ (s : State) (a : Addr) (v : Word), s.err = true →
    (a = 0 ∧ v = 0x02000000 → cellWrite a v s = exec .eclr s ∧
      cellWrite a v s = .next { s with err := false, errcode := 0, errinfo := 0 }) ∧
    (¬ (a = 0 ∧ v = 0x02000000) → cellWrite a v s = .next s) ∧
    (∀ c r, cellOf a = some c → cellContent s c = some r → cellRead a s = (r, s)) ∧
    ((∀ c, cellOf a = some c → c.writeOnly = true) → cellRead a s = (0, s))

/-- R186: an access that raises an error changes the three error items and nothing else. -/
def Obligations.ErrorChangesNothingElse : Prop :=
  ∀ s t : State, s.err = false → t.err = true →
    ((∃ a v, cellWrite a v s = .next t) ∨ (∃ a, (cellRead a s).2 = t)) →
    t = { s with err := true, errcode := t.errcode, errinfo := t.errinfo }

/-- R183: the detail is the command word for codes 1 to 8 and the zero-extended cell address for codes 9 and 10. -/
def Obligations.ErrorDetailIsWordOrAddress : Prop :=
  ∀ (s t : State) (a : Addr), s.err = false → t.err = true →
    (∀ v, cellWrite a v s = .next t →
      (a = 0 ∧ 1 ≤ t.errcode.toNat ∧ t.errcode.toNat ≤ 8 ∧ t.errinfo = v) ∨
      ((t.errcode = 9 ∨ t.errcode = 10) ∧ t.errinfo = a.setWidth 32)) ∧
    ((cellRead a s).2 = t → t.errcode = 9 ∧ t.errinfo = a.setWidth 32)

/-- R182, column "who": which access or command can raise which code. -/
def Obligations.OnlyListedOperationsRaise : Prop :=
  ∀ (s t : State) (a : Addr), s.err = false → t.err = true →
    (∀ v, cellWrite a v s = .next t →
      (a = 0 ∧ t.errcode = 2 ∧ decode v = none) ∨
      (a = 0 ∧ ∃ i, decode v = some i ∧ t.errcode ∈ mayRaise i) ∨
      (t.errcode = 9 ∧ ∀ c, cellOf a = some c → c.writable = false) ∨
      (t.errcode = 10 ∧ a = 0x000A ∧ s.str.length = 8192) ∨
      (t.errcode = 10 ∧ ∃ k : PReg, a.toNat = 0x0014 + k.number ∧ (s.poly k).length = 256)) ∧
    ((cellRead a s).2 = t → t.errcode = 9 ∧ ∀ c, cellOf a = some c → c.writeOnly = true)

/-- R51: the cell map gives every cell its one address, and the unmapped addresses are those listed. -/
def Obligations.CellMapIsExact : Prop :=
  (∀ c : Cell, cellOf c.addr = some c) ∧ (∀ a c, cellOf a = some c → c.addr = a) ∧
  (∀ a : Addr, cellOf a = none ↔
    ((0x000B ≤ a.toNat ∧ a.toNat ≤ 0x000F) ∨ (0x0018 ≤ a.toNat ∧ a.toNat ≤ 0x03FF) ∨
      (0x0800 ≤ a.toNat ∧ a.toNat ≤ 0x1FFF) ∨ 0x5000 ≤ a.toNat))

/-- R52: a read of a readable mapped cell returns its content and changes no state, whatever `ERR` is; a read of an unmapped
or W cell returns 0 and raises E_ACC with the address, which a pending error suppresses. -/
def Obligations.ReadReturnsContentOrRaises : Prop :=
  (∀ (s : State) (c : Cell), cellContent s c = none ↔ c.writeOnly = true) ∧
  ∀ (s : State) (a : Addr),
    (∀ c v, cellOf a = some c → cellContent s c = some v → cellRead a s = (v, s)) ∧
    ((∀ c, cellOf a = some c → c.writeOnly = true) →
      (s.err = false → cellRead a s = (0, { s with err := true, errcode := 9, errinfo := a.setWidth 32 })) ∧
      (s.err = true → cellRead a s = (0, s)))

/-- What each readable cell holds, by its address, in a state whose sequences have the lengths of R38 (R51, R31, R57 to R59,
R61). -/
def Obligations.CellsHoldTheState : Prop :=
  ∀ s : State, s.WellSized →
    readable 0x0001 s = some (BitVec.ofNat 32 (s.err.toNat + 2 * s.tinit.toNat)) ∧
    readable 0x0002 s = some (BitVec.ofNat 32 s.errcode.toNat) ∧
    readable 0x0003 s = some s.errinfo ∧
    readable 0x0004 s = some (BitVec.ofNat 32 s.res.toNat) ∧
    readable 0x0005 s =
      some (match s.mode with | .numeric => 0 | .alphanumeric => 1 | .byte => 2 | .kanji => 3) ∧
    readable 0x0006 s = some (BitVec.ofNat 32 s.ccb.toNat) ∧
    readable 0x0007 s = some (BitVec.ofNat 32 s.dcw.toNat) ∧
    readable 0x0008 s = some (BitVec.ofNat 32 s.str.length) ∧
    readable 0x0009 s = some (BitVec.ofNat 32 s.bits.length) ∧
    (∀ k : PReg, readable (BitVec.ofNat 16 (0x0010 + k.number)) s = some (BitVec.ofNat 32 (s.poly k).length)) ∧
    (∀ (k : PReg) (i : Nat), i < 256 → readable (BitVec.ofNat 16 (0x0400 + 0x100 * k.number + i)) s =
      some (BitVec.ofNat 32 (if i < (s.poly k).length then ((s.poly k).getD i 0).toNat else 0))) ∧
    (∀ i : Nat, i < 8192 → readable (BitVec.ofNat 16 (0x2000 + i)) s =
      some (BitVec.ofNat 32 (if i < s.str.length then (s.str.getD i 0).toNat else 0))) ∧
    (∀ i : Nat, i < 4096 → readable (BitVec.ofNat 16 (0x4000 + i)) s =
      some (BitVec.ofNat 32 (codewordSum s.bits i)))

/-- R55, R56: a push appends the low 8 bits of the value at the end, or raises E_FULL and changes nothing. -/
def Obligations.PushAppendsOrRaisesFull : Prop :=
  ∀ (s : State) (v : Word), s.err = false →
    (∀ k : PReg, cellWrite (BitVec.ofNat 16 (0x0014 + k.number)) v s = .next
      (if (s.poly k).length = 256 then
        { s with err := true, errcode := 10, errinfo := BitVec.ofNat 32 (0x0014 + k.number) }
      else { s with polys := s.polys.set k (s.poly k ++ [BitVec.ofNat 8 v.toNat]) })) ∧
    cellWrite 0x000A v s = .next
      (if s.str.length = 8192 then { s with err := true, errcode := 10, errinfo := 0x0000000A }
      else { s with str := s.str ++ [BitVec.ofNat 8 v.toNat] })

/-- R60: a write of CCB stores the low 5 bits and a write of DCW the low 12, with no other effect. -/
def Obligations.ConfigurationWritesStoreLowBits : Prop :=
  ∀ (s : State) (v : Word), s.err = false →
    cellWrite 0x0006 v s = .next { s with ccb := BitVec.ofNat 5 v.toNat } ∧
    cellWrite 0x0007 v s = .next { s with dcw := BitVec.ofNat 12 v.toNat }

/-- R53 step 2, R54: with `ERR` = 0 a write of an unmapped or read-only cell raises E_ACC with the address, and nothing else
changes. -/
def Obligations.ForbiddenWritesRaiseAccess : Prop :=
  ∀ (s : State) (a : Addr) (v : Word), s.err = false → (∀ c, cellOf a = some c → c.writable = false) →
    cellWrite a v s = .next { s with err := true, errcode := 9, errinfo := a.setWidth 32 }

-- Reset and whole-machine rules

/-- R37: the state after reset (the tables have no stated content and are left out), every readable cell reads 0, and the
state is the one after SCLR and MSEL. -/
def Obligations.ResetStateReadsZero : Prop :=
  State.reset.tinit = false ∧ State.reset.res = 0 ∧ (∀ k, State.reset.poly k = []) ∧ State.reset.str = [] ∧
  State.reset.mode = .numeric ∧ State.reset.ccb = 0 ∧ State.reset.dcw = 0 ∧ State.reset.bits = [] ∧
  State.reset.err = false ∧ State.reset.errcode = 0 ∧ State.reset.errinfo = 0 ∧
  (∀ a v, readable a State.reset = some v → v = 0) ∧
  exec .sclr State.reset = .next State.reset ∧ exec .msel State.reset = .next State.reset

/-- R200, R201: asserting reset puts every item of the block at its reset value, from any state and with an error pending
too; the tables' reset content is the model's choice (log 2), and the host's coming moves stay (log 1). -/
def Obligations.ResetMoveResetsTheBlock : Prop :=
  ∀ (s : State) (rest : List HostMove), s.script = .reset :: rest →
    ∃ t, step s = .next t ∧ t.tinit = false ∧ t.res = 0 ∧ (∀ k, t.poly k = []) ∧ t.str = [] ∧ t.mode = .numeric ∧
      t.ccb = 0 ∧ t.dcw = 0 ∧ t.bits = [] ∧ t.err = false ∧ t.errcode = 0 ∧ t.errinfo = 0 ∧ t.script = rest

/-- The reset state meets the invariant (R38, R37). -/
def Obligations.ResetStateIsSafe : Prop := State.reset.Inv

/-- Every step keeps the invariant of R38 (lengths, error items, MODE) and R23 (tables built when TINIT = 1). -/
def Obligations.StepKeepsTheInvariant : Prop := ∀ s t : State, s.Inv → step s = .next t → t.Inv

/-- R23, R38, R22: nothing but reset clears TINIT, and the tables do not change once built. -/
def Obligations.OnlyResetClearsTinit : Prop :=
  ∀ s t : State, s.tinit = true → step s = .next t → (∀ rest, s.script ≠ .reset :: rest) →
    t.tinit = true ∧ t.tables = s.tables

/-- R70, R209: every access and every command has an outcome, so no step and no command ends in a fault or a refusal; the idle
block (no coming move, R191, log 1) keeps its state. -/
def Obligations.NothingStopsTheBlock : Prop :=
  (∀ s : State, ∃ t, step s = .next t) ∧ (∀ (i : Instr) (s : State), ∃ t, exec i s = .next t) ∧
  (∀ s : State, s.script = [] → step s = .next s)

/-- Which commands may change each item of state, and that no other command does (R20, R24 to R33, R105, R106, R186): `CCB`,
`DCW` and the host's side of the port none; `S` SCLR; `MODE` MSEL, PACK; `RES` the three field commands; `P[k]` the five
polynomial commands that name it as destination; `B` the seven of the bit stream; `TINIT` and the tables TINIT and the six
commands under the guard, which at most build them; the error items ECLR and an error: with one pending they stay, and
with none before and after they stay. -/
def Obligations.CommandsChangeOnlyTheirDestination : Prop :=
  ∀ (i : Instr) (s t : State), exec i s = .next t →
    t.ccb = s.ccb ∧ t.dcw = s.dcw ∧ t.script = s.script ∧ t.reply = s.reply ∧
    (i ≠ .sclr → t.str = s.str) ∧
    (i ≠ .msel → i ≠ .pack → t.mode = s.mode) ∧
    ((∀ n, i ≠ .gfexp n) → (∀ n, i ≠ .gflog n) → (∀ x y, i ≠ .gfmul x y) → t.res = s.res) ∧
    (∀ k, (i ≠ .pclr k) → (∀ pa pb, i ≠ .pmul k pa pb) → (∀ n, i ≠ .genp k n) → (∀ pg pm, i ≠ .rsdiv k pg pm) →
      (∀ off len, i ≠ .cwld k off len) → t.poly k = s.poly k) ∧
    (i ≠ .bclr → i ≠ .pkhdr → i ≠ .pknum → i ≠ .pkaln → i ≠ .pktrm → i ≠ .pkpad → i ≠ .pack → t.bits = s.bits) ∧
    (i ≠ .eclr → s.err = true → t.err = true ∧ t.errcode = s.errcode ∧ t.errinfo = s.errinfo) ∧
    (i ≠ .eclr → s.err = false → t.err = false → t.errcode = s.errcode ∧ t.errinfo = s.errinfo) ∧
    (buildsTables i = false → t.tinit = s.tinit ∧ t.exp = s.exp ∧ t.log = s.log) ∧
    (t.tinit = s.tinit ∧ t.exp = s.exp ∧ t.log = s.log ∨
      t.tinit = true ∧ t.exp = (useTables s).exp ∧ t.log = (useTables s).log)

/-- R23, R105: the result of every command is independent of TINIT: run from the state and from the same state with the tables
already built, a command leaves states that differ at most in whether the tables are built. -/
def Obligations.ResultsDoNotDependOnTinit : Prop :=
  ∀ (i : Instr) (s t u : State), exec i s = .next t → exec i (useTables s) = .next u → useTables t = useTables u

-- Field Arithmetic Engine

/-- R106, R100: with TINIT = 1 the command TINIT changes nothing; with TINIT = 0 it runs the construction loop of R100 on
tables of 256 entries and sets TINIT. -/
def Obligations.TinitBuildsTheTablesOnce : Prop :=
  ∀ s : State, (s.tinit = true → exec .tinit s = .next s) ∧
    (s.tinit = false → s.exp.length = 256 → s.log.length = 256 →
      exec .tinit s = .next { s with
        exp := (constructTables s.tables).exp, log := (constructTables s.tables).log, tinit := true })

/-- R21, R22, R100: what the construction loop leaves: the powers of 2 and the logarithms, entry 255 the parameter (log 3),
`LOG[0]` as it was. -/
def Obligations.ConstructionLeavesPowersAndLogarithms : Prop :=
  ∀ t : Tables, t.exp.length = 256 → t.log.length = 256 →
    (constructTables t).exp.length = 256 ∧ (constructTables t).log.length = 256 ∧
    (∀ i, i < 255 → (constructTables t).exp.getD i 0 = fieldPow2 i) ∧
    (constructTables t).exp.getD 255 0 = Config.exp255 ∧
    (∀ n, 1 ≤ n → n < 256 → ((constructTables t).log.getD n 0).toNat < 255 ∧
      fieldPow2 ((constructTables t).log.getD n 0).toNat = BitVec.ofNat 8 n) ∧
    (constructTables t).log.getD 0 0 = t.log.getD 0 0

/-- R107: GFEXP n writes 2^n to RES, for n = 255 the parameter `EXP255` (log 3); it sets TINIT and changes nothing else. -/
def Obligations.GfexpWritesThePower : Prop :=
  ∀ (s : State) (n : Byte), s.TablesReady →
    exec (.gfexp n) s = .next { s with
      exp := (useTables s).exp, log := (useTables s).log, tinit := true, res := if n = 255 then Config.exp255 else fieldPow2 n.toNat }

/-- R108: GFLOG n writes the exponent of n to RES, below 255; GFLOG 0 raises E_DOM with 0x11000000 as detail. -/
def Obligations.GflogWritesTheLogarithm : Prop :=
  (∀ (s : State) (n : Byte), s.TablesReady → n ≠ 0 →
    ∃ r : Byte, r.toNat < 255 ∧ fieldPow2 r.toNat = n ∧
      exec (.gflog n) s = .next { s with exp := (useTables s).exp, log := (useTables s).log, tinit := true, res := r }) ∧
  (∀ s : State, s.err = false →
    exec (.gflog 0) s = .next { s with err := true, errcode := 1, errinfo := 0x11000000 })

/-- R109, R103, R104 (c): GFMUL x, y writes the product of GF(2)[x]/(0x11D), which uses no table, to RES, for every pair of
operands, zeros included. -/
def Obligations.GfmulIsTheFieldProduct : Prop :=
  ∀ (s : State) (x y : Byte), s.TablesReady →
    exec (.gfmul x y) s = .next { s with
      exp := (useTables s).exp, log := (useTables s).log, tinit := true, res := fieldMul x y }

/-- R104: the laws of the field functions over the built tables: `exp` and `log` undo each other, multiplication is that of
GF(2)[x]/(0x11D), so commutative, associative, distributive over xor, with unit 1, zero 0 and inverses, and 2 times 128 is 29.
Law (a) is the source's; (b), (c) and (d) are inferences the spec marks as derived from R100 and R103. -/
def Obligations.FieldFunctionsObeyTheirLaws : Prop :=
  ∀ t : Tables, t.Built →
    (∀ n : Byte, n ≠ 0 → ∃ l, gfLog t n = some l ∧ gfExp t l = n) ∧
    (∀ i : Byte, i ≠ 255 → gfLog t (gfExp t i) = some i) ∧
    (∀ x y : Byte, gfMul t x y = fieldMul x y ∧ gfMul t x y = gfMul t y x) ∧
    (∀ x y z : Byte, gfMul t (gfMul t x y) z = gfMul t x (gfMul t y z) ∧
      gfMul t x (y ^^^ z) = gfMul t x y ^^^ gfMul t x z) ∧
    (∀ x : Byte, gfMul t 1 x = x ∧ gfMul t x 1 = x ∧ gfMul t 0 x = 0 ∧ gfMul t x 0 = 0) ∧
    (∀ x : Byte, x ≠ 0 → ∃ y, gfMul t x y = 1) ∧
    gfMul t 2 128 = 29

/-- R104 (a): GFLOG n, then GFEXP of its result, gives n back, for every n but 0. -/
def Obligations.ExpOfLogIsTheIdentity : Prop :=
  ∀ (s : State) (n : Byte), s.TablesReady → n ≠ 0 →
    ∃ t u, exec (.gflog n) s = .next t ∧ exec (.gfexp t.res) t = .next u ∧ u.res = n

-- Reed-Solomon Encoder

/-- R125, R148, R150: PCLR, SCLR and BCLR empty their register or buffer and change nothing else. -/
def Obligations.ClearsEmptyOneSequence : Prop :=
  (∀ (s : State) (pd : PReg), ∃ t, exec (.pclr pd) s = .next t ∧ t.poly pd = [] ∧
    (∀ k, k ≠ pd → t.poly k = s.poly k) ∧ t = { s with polys := t.polys }) ∧
  (∀ s : State, ∃ t, exec .sclr s = .next t ∧ t.str = [] ∧ t = { s with str := t.str }) ∧
  (∀ s : State, ∃ t, exec .bclr s = .next t ∧ t.bits = [] ∧ t = { s with bits := t.bits })

/-- R126, R121: PMUL writes the convolution of its two sources, read before the destination is written, and sets TINIT. -/
def Obligations.PmulIsTheConvolution : Prop :=
  ∀ (s : State) (pd pa pb : PReg), s.TablesReady → s.poly pa ≠ [] → s.poly pb ≠ [] →
    (s.poly pa).length + (s.poly pb).length - 1 ≤ 256 →
    exec (.pmul pd pa pb) s = .next { s with
      exp := (useTables s).exp, log := (useTables s).log, tinit := true, polys := s.polys.set pd (refMul (s.poly pa) (s.poly pb)) }

/-- R126: PMUL raises E_OPER for an empty source, else E_LEN for a product of more than 256 coefficients, with its word as
detail. -/
def Obligations.PmulRefusesEmptyAndOverlong : Prop :=
  ∀ (s : State) (pd pa pb : PReg), s.err = false →
    ((s.poly pa = [] ∨ s.poly pb = []) → exec (.pmul pd pa pb) s =
      .next { s with err := true, errcode := 3, errinfo := encode (.pmul pd pa pb) }) ∧
    (s.poly pa ≠ [] → s.poly pb ≠ [] → 256 < (s.poly pa).length + (s.poly pb).length - 1 → exec (.pmul pd pa pb) s =
      .next { s with err := true, errcode := 4, errinfo := encode (.pmul pd pa pb) })

/-- R124 (a): multiplying by `[1]` on either side gives the polynomial back. -/
def Obligations.PmulByOneIsTheIdentity : Prop :=
  ∀ (s : State) (pd pa pb : PReg), s.TablesReady → s.poly pa ≠ [] → (s.poly pa).length ≤ 256 → s.poly pb = [1] →
    (∃ t, exec (.pmul pd pa pb) s = .next t ∧ t.poly pd = s.poly pa) ∧
    (∃ t, exec (.pmul pd pb pa) s = .next t ∧ t.poly pd = s.poly pa)

/-- R127, R122: GENP pd, n writes the product of the factors `x - 2^i` for i below n, for every n of the 8-bit field. -/
def Obligations.GenpIsTheProductOfFactors : Prop :=
  ∀ (s : State) (pd : PReg) (n : Byte), s.TablesReady →
    exec (.genp pd n) s = .next { s with
      exp := (useTables s).exp, log := (useTables s).log, tinit := true, polys := s.polys.set pd (refGen n.toNat) }

/-- R122, R124 (c): what GENP writes is monic, has n + 1 coefficients, and is 0 at 2^i for every i below n. -/
def Obligations.GeneratorIsMonicWithItsRoots : Prop :=
  ∀ (s : State) (pd : PReg) (n : Byte), s.TablesReady →
    ∃ t, exec (.genp pd n) s = .next t ∧ (t.poly pd).length = n.toNat + 1 ∧ (t.poly pd).head? = some 1 ∧
      ∀ i, i < n.toNat → refEval (t.poly pd) (fieldPow2 i) = 0

/-- R128, R123: with a monic generator g and any message m, RSDIV writes the remainder c of m(x) x^ec by g(x): c has one
coefficient fewer than g, and m followed by c is the product of g and a quotient as long as m; an empty message gives zeros. -/
def Obligations.RsdivIsTheRemainder : Prop :=
  ∀ (s : State) (pd pg pm : PReg), s.TablesReady → (s.poly pg).head? = some 1 →
    ∃ c : Poly, c.length = (s.poly pg).length - 1 ∧
      exec (.rsdiv pd pg pm) s = .next { s with
        exp := (useTables s).exp, log := (useTables s).log, tinit := true, polys := s.polys.set pd c } ∧
      (s.poly pm = [] → c = List.replicate ((s.poly pg).length - 1) 0) ∧
      (s.poly pm ≠ [] → ∃ q : Poly, q.length = (s.poly pm).length ∧ refMul (s.poly pg) q = s.poly pm ++ c)

/-- R124 (g): with a monic generator the correction codewords are linear in the message: those of the xor of two messages of
one length are the xor of theirs. The generator's register is not the message's, since one register cannot hold three messages
and stay the generator. -/
def Obligations.RsdivIsLinearInTheMessage : Prop :=
  ∀ (s : State) (pd pg pm : PReg) (m m' : Poly), s.TablesReady → (s.poly pg).head? = some 1 → pg ≠ pm →
    m.length = m'.length →
    ∃ t t' u, exec (.rsdiv pd pg pm) (s.setPoly pm m) = .next t ∧ exec (.rsdiv pd pg pm) (s.setPoly pm m') = .next t' ∧
      exec (.rsdiv pd pg pm) (s.setPoly pm (List.zipWith (· ^^^ ·) m m')) = .next u ∧
      u.poly pd = List.zipWith (· ^^^ ·) (t.poly pd) (t'.poly pd)

/-- R128: RSDIV raises E_OPER for an empty generator or one whose leading coefficient is not 1. -/
def Obligations.RsdivRefusesNonMonicGenerator : Prop :=
  ∀ (s : State) (pd pg pm : PReg), s.err = false → (s.poly pg).head? ≠ some 1 →
    exec (.rsdiv pd pg pm) s = .next { s with err := true, errcode := 3, errinfo := encode (.rsdiv pd pg pm) }

/-- R124 (f), an inference the spec marks as derived: the message RSDIV reads, followed by its correction codewords for n, the
generator built by GENP, is 0 at 2^i for every i below n. With different registers the message is the one before GENP; with
pg = pm GENP has overwritten it and the generator is its own message. -/
def Obligations.EncodedBlockHasTheGeneratorsRoots : Prop :=
  ∀ (s : State) (pd pg pm : PReg) (n : Byte), s.TablesReady →
    ∃ t u, exec (.genp pg n) s = .next t ∧ exec (.rsdiv pd pg pm) t = .next u ∧
      (pg ≠ pm → t.poly pm = s.poly pm) ∧ (u.poly pd).length = n.toNat ∧
      ∀ i, i < n.toNat → refEval (t.poly pm ++ u.poly pd) (fieldPow2 i) = 0

/-- R129, R147: CWLD copies len codewords from codeword off on, the first one leading, when the range lies inside the bits
held, and raises E_OPER otherwise. -/
def Obligations.CwldCopiesWholeCodewords : Prop :=
  ∀ (s : State) (pd : PReg) (off : BitVec 12) (len : BitVec 10),
    (8 * (off.toNat + len.toNat) ≤ s.bits.length →
      exec (.cwld pd off len) s = .next { s with
        polys := s.polys.set pd ((List.range len.toNat).map fun k => BitVec.ofNat 8 (codewordSum s.bits (off.toNat + k))) }) ∧
    (s.bits.length < 8 * (off.toNat + len.toNat) → s.err = false →
      exec (.cwld pd off len) s = .next { s with err := true, errcode := 3, errinfo := encode (.cwld pd off len) })

-- Mode Selector & Bit Packer

/-- R149, R141: MSEL writes MODE: Numeric when every character is a digit, else Alphanumeric when every one is in the
alphabet, else Byte. -/
def Obligations.MselClassifiesTheString : Prop :=
  ∀ s : State, ∃ m, exec .msel s = .next { s with mode := m } ∧
    (m = .numeric ↔ ∀ c ∈ s.str, c ∈ digits) ∧
    (m = .alphanumeric ↔ (¬ ∀ c ∈ s.str, c ∈ digits) ∧ ∀ c ∈ s.str, c ∈ alphabet) ∧
    (m = .byte ↔ ¬ ∀ c ∈ s.str, c ∈ alphabet)

/-- R151, R144: PKHDR appends the 4-bit indicator of MODE and the character count in CCB bits, each most significant bit
first. -/
def Obligations.PkhdrAppendsIndicatorAndCount : Prop :=
  ∀ s : State, (s.mode = .numeric ∨ s.mode = .alphanumeric) → s.str.length < 2 ^ s.ccb.toNat →
    s.bits.length + 4 + s.ccb.toNat ≤ 32768 →
    ∃ h : BitSeq, exec .pkhdr s = .next { s with bits := s.bits ++ h } ∧ h.length = 4 + s.ccb.toNat ∧
      bitsNumber h 0 4 = (if s.mode = .numeric then Config.modeIndNumeric else Config.modeIndAlphanumeric).toNat ∧
      bitsNumber h 4 s.ccb.toNat = s.str.length

/-- R151, R185: PKHDR's errors in their order: E_MODE, E_CNT, E_LEN. -/
def Obligations.PkhdrRefusalsInOrder : Prop :=
  ∀ s : State, s.err = false →
    ((s.mode = .byte ∨ s.mode = .kanji) →
      exec .pkhdr s = .next { s with err := true, errcode := 5, errinfo := 0x33000000 }) ∧
    ((s.mode = .numeric ∨ s.mode = .alphanumeric) → 2 ^ s.ccb.toNat ≤ s.str.length →
      exec .pkhdr s = .next { s with err := true, errcode := 7, errinfo := 0x33000000 }) ∧
    ((s.mode = .numeric ∨ s.mode = .alphanumeric) → s.str.length < 2 ^ s.ccb.toNat →
      32768 < s.bits.length + 4 + s.ccb.toNat →
      exec .pkhdr s = .next { s with err := true, errcode := 4, errinfo := 0x33000000 })

/-- R152, R142: PKNUM appends, for a string of digits, each group of three as its decimal reading in 10 bits, a last group of
two in 7 and of one in 4; MODE is not looked at. -/
def Obligations.PknumAppendsDecimalGroups : Prop :=
  ∀ s : State, (∀ c ∈ s.str, c ∈ digits) → s.bits.length + numericLength s.str.length ≤ 32768 →
    ∃ p : BitSeq, exec .pknum s = .next { s with bits := s.bits ++ p } ∧
      p.length = 10 * (s.str.length / 3) + (if s.str.length % 3 = 2 then 7 else if s.str.length % 3 = 1 then 4 else 0) ∧
      (∀ j, j < s.str.length / 3 → bitsNumber p (10 * j) 10 =
        100 * digits.idxOf (s.str.getD (3 * j) 0) + 10 * digits.idxOf (s.str.getD (3 * j + 1) 0)
          + digits.idxOf (s.str.getD (3 * j + 2) 0)) ∧
      (s.str.length % 3 = 2 → bitsNumber p (10 * (s.str.length / 3)) 7 =
        10 * digits.idxOf (s.str.getD (s.str.length - 2) 0) + digits.idxOf (s.str.getD (s.str.length - 1) 0)) ∧
      (s.str.length % 3 = 1 → bitsNumber p (10 * (s.str.length / 3)) 4 =
        digits.idxOf (s.str.getD (s.str.length - 1) 0))

/-- R153, R143: PKALN appends, for a string of the alphabet, each pair as first*45+second in 11 bits and an unpaired last
character in 6, whatever the value of an index (90_conflicts C2). -/
def Obligations.PkalnAppendsPairs : Prop :=
  ∀ s : State, (∀ c ∈ s.str, c ∈ alphabet) → s.bits.length + alnumLength s.str.length ≤ 32768 →
    ∃ p : BitSeq, exec .pkaln s = .next { s with bits := s.bits ++ p } ∧
      p.length = 11 * (s.str.length / 2) + 6 * (s.str.length % 2) ∧
      (∀ j, j < s.str.length / 2 → bitsNumber p (11 * j) 11 =
        45 * alphabet.idxOf (s.str.getD (2 * j) 0) + alphabet.idxOf (s.str.getD (2 * j + 1) 0)) ∧
      (s.str.length % 2 = 1 → bitsNumber p (11 * (s.str.length / 2)) 6 =
        alphabet.idxOf (s.str.getD (s.str.length - 1) 0))

/-- R152, R153, R185: the payload packers raise E_CHAR for a character outside their alphabet, else E_LEN when the bit buffer
would overflow. -/
def Obligations.PayloadPackersRefuse : Prop :=
  ∀ s : State, s.err = false →
    ((¬ ∀ c ∈ s.str, c ∈ digits) → exec .pknum s = .next { s with err := true, errcode := 6, errinfo := 0x34000000 }) ∧
    ((∀ c ∈ s.str, c ∈ digits) → 32768 < s.bits.length + numericLength s.str.length →
      exec .pknum s = .next { s with err := true, errcode := 4, errinfo := 0x34000000 }) ∧
    ((¬ ∀ c ∈ s.str, c ∈ alphabet) → exec .pkaln s = .next { s with err := true, errcode := 6, errinfo := 0x35000000 }) ∧
    ((∀ c ∈ s.str, c ∈ alphabet) → 32768 < s.bits.length + alnumLength s.str.length →
      exec .pkaln s = .next { s with err := true, errcode := 4, errinfo := 0x35000000 })

/-- R154, R145: PKTRM appends up to 4 zero bits bounded by the remaining capacity, and raises E_CAP when the stream is already
longer than the capacity. -/
def Obligations.PktrmAppendsBoundedZeros : Prop :=
  ∀ s : State,
    (s.bits.length ≤ 8 * s.dcw.toNat → ∃ t, exec .pktrm s = .next t ∧
      t = { s with bits := s.bits ++ List.replicate (t.bits.length - s.bits.length) false } ∧
      (s.bits.length + 4 ≤ 8 * s.dcw.toNat → t.bits.length = s.bits.length + 4) ∧
      (8 * s.dcw.toNat < s.bits.length + 4 → t.bits.length = 8 * s.dcw.toNat)) ∧
    (8 * s.dcw.toNat < s.bits.length → s.err = false →
      exec .pktrm s = .next { s with err := true, errcode := 8, errinfo := 0x36000000 })

/-- R155, R146: PKPAD keeps the stream, adds zero bits to the next byte boundary, then the bytes 236 and 17 in turn until the
capacity exactly; it raises E_CAP when the stream is longer than the capacity. -/
def Obligations.PkpadFillsToCapacity : Prop :=
  ∀ s : State,
    (s.bits.length ≤ 8 * s.dcw.toNat → ∃ b : BitSeq, exec .pkpad s = .next { s with bits := b } ∧
      b.length = 8 * s.dcw.toNat ∧ b.take s.bits.length = s.bits ∧
      (∀ n, s.bits.length ≤ n → n < 8 * ((s.bits.length + 7) / 8) → b.getD n true = false) ∧
      (∀ k, (s.bits.length + 7) / 8 + k < s.dcw.toNat →
        codewordSum b ((s.bits.length + 7) / 8 + k) = if k % 2 = 0 then 236 else 17)) ∧
    (8 * s.dcw.toNat < s.bits.length → s.err = false →
      exec .pkpad s = .next { s with err := true, errcode := 8, errinfo := 0x37000000 })

/-- R156: PACK, when the string is not Byte, the count fits and the stream fits, writes MODE and replaces B by a stream of
exactly 8*DCW bits that opens with the indicator, the count and the payload. -/
def Obligations.PackWritesTheWholeStream : Prop :=
  ∀ s : State, (∀ c ∈ s.str, c ∈ alphabet) → s.str.length < 2 ^ s.ccb.toNat →
    4 + s.ccb.toNat + (payload (classify s.str) s.str).length ≤ 8 * s.dcw.toNat →
    ∃ b : BitSeq, exec .pack s = .next { s with mode := classify s.str, bits := b } ∧ b.length = 8 * s.dcw.toNat ∧
      bitsNumber b 0 4 =
        (if classify s.str = .numeric then Config.modeIndNumeric else Config.modeIndAlphanumeric).toNat ∧
      bitsNumber b 4 s.ccb.toNat = s.str.length ∧
      (b.drop (4 + s.ccb.toNat)).take (payload (classify s.str) s.str).length = payload (classify s.str) s.str

/-- R156, R185, R202: PACK's errors in their order, E_MODE, E_CNT, E_CAP; none of them changes MODE or B. -/
def Obligations.PackRefusalsInOrder : Prop :=
  ∀ s : State, s.err = false →
    ((¬ ∀ c ∈ s.str, c ∈ alphabet) → exec .pack s = .next { s with err := true, errcode := 5, errinfo := 0x38000000 }) ∧
    ((∀ c ∈ s.str, c ∈ alphabet) → 2 ^ s.ccb.toNat ≤ s.str.length →
      exec .pack s = .next { s with err := true, errcode := 7, errinfo := 0x38000000 }) ∧
    ((∀ c ∈ s.str, c ∈ alphabet) → s.str.length < 2 ^ s.ccb.toNat →
      8 * s.dcw.toNat < 4 + s.ccb.toNat + (payload (classify s.str) s.str).length →
      exec .pack s = .next { s with err := true, errcode := 8, errinfo := 0x38000000 })

/-- R157: when the step commands MSEL, BCLR, PKHDR, PKNUM or PKALN by MODE, PKTRM, PKPAD raise no error, they leave the same
state as PACK. -/
def Obligations.PackEqualsTheStepCommands : Prop :=
  ∀ s t : State, s.err = false → packBySteps s = .next t → t.err = false → exec .pack s = .next t

-- Errors and their return

/-- R181, R182: `raise` records the number of its code and its detail when no error is pending, and keeps the first error
otherwise. -/
def Obligations.RaiseKeepsTheFirstError : Prop :=
  (∀ (e : ErrCode) (info : Word) (s : State),
    (s.err = true → raise e info s = s) ∧
    (s.err = false → raise e info s = { s with err := true, errcode := e.code, errinfo := info })) ∧
  [ErrCode.dom, .ill, .oper, .len, .mode, .char, .cnt, .cap, .acc, .full].map ErrCode.code = [1, 2, 3, 4, 5, 6, 7, 8, 9, 10]

/-- R170: ECLR clears the three error items and changes nothing else, in every state; with no error pending and the error items
in agreement (R31 to R33) it changes nothing. -/
def Obligations.EclrClearsTheErrorItems : Prop :=
  (∀ s : State, ∃ t, exec .eclr s = .next t ∧ t.err = false ∧ t.errcode = 0 ∧ t.errinfo = 0 ∧
    t = { s with err := t.err, errcode := t.errcode, errinfo := t.errinfo }) ∧
  (∀ s : State, s.ErrorConsistent → s.err = false → exec .eclr s = .next s)

-- Host scripts

/-- R89: `.poly Pk` leaves exactly the listed coefficients in its register, `.str` exactly the listed codes in the string buffer,
and `.cfg` the two configuration values, run as the coming moves of a block without error (log 1), and change nothing else. -/
def Obligations.ScriptLinesLoadTheBlock : Prop :=
  ∀ (s : State) (rest : List HostMove), s.err = false →
    (∀ (k : PReg) (cs : List Byte), cs.length ≤ 256 → s.script = (ScriptLine.loadPoly k cs).moves ++ rest →
      core.run (cs.length + 1) s =
        .next ({ s with polys := s.polys.set k cs, script := rest, reply := none } : State)) ∧
    (∀ codes : List Byte, codes.length ≤ 8192 → s.script = (ScriptLine.loadStr codes).moves ++ rest →
      core.run (codes.length + 1) s = .next ({ s with str := codes, script := rest, reply := none } : State)) ∧
    (∀ ccb dcw : Word, s.script = (ScriptLine.config ccb dcw).moves ++ rest →
      core.run 2 s = .next ({ s with
        ccb := BitVec.ofNat 5 ccb.toNat, dcw := BitVec.ofNat 12 dcw.toNat, script := rest, reply := none } : State))

/-- R89, R130: `RSENC Pd, Pm, n` with d and m different, run as the coming moves of a block without error (log 1), leaves n
correction codewords in Pd and the message in Pm, and the message followed by them is 0 at 2^i for every i below n. -/
def Obligations.RsencComputesCorrectionCodewords : Prop :=
  ∀ (s : State) (pd pm : PReg) (n : Byte) (rest : List HostMove), s.err = false → s.TablesReady → pd ≠ pm →
    s.script = (ScriptLine.rsenc pd pm n).moves ++ rest →
    ∃ c : Poly, c.length = n.toNat ∧ (∀ i, i < n.toNat → refEval (s.poly pm ++ c) (fieldPow2 i) = 0) ∧
      core.run 2 s = .next ({ s with
        exp := (useTables s).exp, log := (useTables s).log, tinit := true, polys := s.polys.set pd c, script := rest, reply := none } : State)

-- The block's step relation

/-- R65, R210: a step with a coming move is the block's step relation with that access as its input: the block after it and the
value returned are functions of the block before it and the access, whatever the rest of the host's moves and the earlier
reply are (log 1). -/
def Obligations.StepIsTheBlocksAccess : Prop :=
  ∀ (s : State) (m : HostMove) (rest : List HostMove), s.script = m :: rest →
    ∃ (b : Block) (r : Option Word), Block.access m s.toBlock = .next (b, r) ∧
      step s = .next { toBlock := b, script := rest, reply := r }
end

