-- ==== Sys2Proof/Laws/Decode.lean ====
section
/-! SUPPORT. Fields of a word and of an encoded command as numbers. -/

namespace Sys2Proof

/-- A field is a quotient and a remainder (R5). -/
theorem field_toNat (w : Word) (lo n : Nat) : (field w lo n).toNat = w.toNat / 2 ^ lo % 2 ^ n := by
  simp [field, BitVec.extractLsb'_toNat, Nat.shiftRight_eq_div_pow]

theorem mustBeZero_iff (w : Word) (lo n : Nat) : mustBeZero w lo n = true ↔ w.toNat / 2 ^ lo % 2 ^ n = 0 := by
  simp [mustBeZero, field_toNat]

theorem PReg.number_lt (k : PReg) : k.number < 4 := by cases k <;> decide

@[simp] theorem PReg.ofBits_number (k : PReg) : PReg.ofBits (BitVec.ofNat 2 k.number) = k := by cases k <;> rfl

theorem PReg.number_ofBits (b : BitVec 2) : (PReg.ofBits b).number = b.toNat := by revert b; decide

theorem PReg.number_injective {j k : PReg} (h : j.number = k.number) : j = k := by
  rw [← PReg.ofBits_number j, h, PReg.ofBits_number]

/-- The number of the register that a designator field names. -/
theorem regField_number (w : Word) (lo : Nat) : (regField w lo).number = w.toNat / 2 ^ lo % 4 := by
  rw [regField, PReg.number_ofBits, field_toNat]; rfl

/-- A field equals the operand whose number it holds. -/
theorem field_eq_of_toNat {w : Word} {lo n : Nat} {v : BitVec n} (h : w.toNat / 2 ^ lo % 2 ^ n = v.toNat) :
    field w lo n = v := BitVec.eq_of_toNat_eq (by rw [field_toNat, h])

theorem regField_eq_of_number {w : Word} {lo : Nat} {k : PReg} (h : w.toNat / 2 ^ lo % 4 = k.number) :
    regField w lo = k := PReg.number_injective (by rw [regField_number, h])

/-- Every command's number is that of a 32-bit word. -/
theorem encodeNat_lt (i : Instr) : encodeNat i < 2 ^ 32 := by
  cases i with
  | pclr pd => have := pd.number_lt; simp only [encodeNat]; omega
  | pmul pd pa pb | rsdiv pd pa pb =>
    have := pd.number_lt; have := pa.number_lt; have := pb.number_lt; simp only [encodeNat]; omega
  | genp pd n => have := pd.number_lt; have := n.isLt; simp only [encodeNat]; omega
  | cwld pd off len =>
    have := pd.number_lt; have := off.isLt; have := len.isLt; simp only [encodeNat]; omega
  | gfmul x y => have := x.isLt; have := y.isLt; simp only [encodeNat]; omega
  | gfexp n | gflog n => have := n.isLt; simp only [encodeNat]; omega
  | tinit | eclr | sclr | msel | bclr | pkhdr | pknum | pkaln | pktrm | pkpad | pack => simp [encodeNat]

@[simp] theorem encode_toNat (i : Instr) : (encode i).toNat = encodeNat i := by
  simp only [encode, BitVec.toNat_ofNat]
  exact Nat.mod_eq_of_lt (encodeNat_lt i)

end Sys2Proof
end

