-- ==== Sys2Proof/Laws/Packer.lean ====
section
/-! SUPPORT. Bit sequences: their lengths and the numbers they denote (spec/00_scope.md R6, spec/43_bit_packer.md R142 to
R147). -/

namespace Sys2Proof.Machine

@[simp] theorem length_bitsOf (v n : Nat) : (bitsOf v n).length = n := by
  induction n with
  | zero => rfl
  | succ n ih => rw [bitsOf, List.length_cons, ih]

@[simp] theorem length_zeroBits (n : Nat) : (zeroBits n).length = n := List.length_replicate

/-- Element `i` of `bits(v, n)` is bit `n-1-i` of `v` (R6). -/
theorem getElem?_bitsOf (v n i : Nat) (h : i < n) : (bitsOf v n)[i]? = some (v.testBit (n - 1 - i)) := by
  induction n generalizing i with
  | zero => omega
  | succ n ih =>
    cases i with
    | zero => simp [bitsOf]
    | succ i => rw [bitsOf, List.getElem?_cons_succ, ih i (by omega)]; congr 2; omega

theorem foldl_number (b : BitSeq) (v : Nat) : b.foldl (fun v x => 2 * v + x.toNat) v = v * 2 ^ b.length + numberOf b := by
  induction b generalizing v with
  | nil => simp [numberOf]
  | cons x b ih =>
    have h0 := ih (2 * 0 + x.toNat)
    simp only [numberOf, List.foldl_cons, ih (2 * v + x.toNat)] at *
    rw [h0, List.length_cons, Nat.pow_succ, Nat.add_mul]
    ring

theorem numberOf_append (b c : BitSeq) : numberOf (b ++ c) = numberOf b * 2 ^ c.length + numberOf c := by
  conv_lhs => rw [numberOf, List.foldl_append]
  rw [foldl_number]; rfl

theorem numberOf_cons (x : Bool) (b : BitSeq) : numberOf (x :: b) = x.toNat * 2 ^ b.length + numberOf b := by
  rw [show x :: b = [x] ++ b from rfl, numberOf_append]
  cases x <;> rfl

/-- A field written to the stream reads back as its number (R6). -/
theorem numberOf_bitsOf (v n : Nat) : numberOf (bitsOf v n) = v % 2 ^ n := by
  induction n with
  | zero => simp [bitsOf, numberOf, Nat.mod_one]
  | succ n ih =>
    rw [bitsOf, numberOf_cons, ih, length_bitsOf]
    rw [Nat.pow_succ, Nat.mod_mul, Nat.toNat_testBit]
    ring

theorem numberOf_lt (b : BitSeq) : numberOf b < 2 ^ b.length := by
  induction b with
  | nil => simp [numberOf]
  | cons x b ih => rw [numberOf_cons, List.length_cons, Nat.pow_succ]; cases x <;> simp <;> omega

/-- The sum of R147 is the number of the codeword's eight bits. -/
theorem codewordSum_eq (b : BitSeq) (i : Nat) :
    codewordSum b i = numberOf ((List.range 8).map fun j => b.getD (8 * i + j) false) := by
  unfold codewordSum
  simp [List.range, List.range.loop, numberOf_cons, Finset.sum_range_succ]
  simp [numberOf]
  omega

theorem codewordSum_lt (b : BitSeq) (i : Nat) : codewordSum b i < 256 := by
  rw [codewordSum_eq]
  exact (numberOf_lt _).trans_le (by simp)

theorem codeword_eq (b : BitSeq) (i : Nat) : codeword b i = BitVec.ofNat 8 (codewordSum b i) := by
  rw [codewordSum_eq, codeword]

/-- A codeword that the sequence fills is the number of its slice. -/
theorem codewordSum_eq_slice (b : BitSeq) (i : Nat) (h : 8 * i + 8 ≤ b.length) :
    codewordSum b i = bitsNumber b (8 * i) 8 := by
  rw [codewordSum_eq, bitsNumber]
  congr 1
  apply List.ext_getElem
  · simp; omega
  · intro n h1 h2
    simp at h1 h2
    simp [List.getD_eq_getElem?_getD, show 8 * i + n < b.length by omega]

-- Characters

theorem isDigit_iff (c : Byte) : isDigit c = true ↔ c ∈ digits := by revert c; decide +kernel

theorem isAln_iff (c : Byte) : isAln c = true ↔ c ∈ alphabet := by revert c; decide +kernel

/-- The value of a digit is its place in the listing (R140). -/
theorem digit_eq_idxOf : ∀ c ∈ digits, digit c = digits.idxOf c := by decide +kernel

/-- The index of a symbol is its place in the listing (R140). -/
theorem aln_eq_idxOf : ∀ c ∈ alphabet, aln c = alphabet.idxOf c := by decide +kernel

theorem mem_alphabet_of_mem_digits {c : Byte} (h : c ∈ digits) : c ∈ alphabet := List.mem_of_mem_take h

theorem all_isDigit_iff (s : List Byte) : s.all isDigit = true ↔ ∀ c ∈ s, c ∈ digits := by simp [isDigit_iff]

theorem all_isAln_iff (s : List Byte) : s.all isAln = true ↔ ∀ c ∈ s, c ∈ alphabet := by simp [isAln_iff]

theorem numericLength_add_three (n : Nat) : numericLength (n + 3) = 10 + numericLength n := by
  unfold numericLength
  split_ifs <;> omega

theorem length_packNumeric (s : List Byte) : (packNumeric s).length = numericLength s.length := by
  induction s using packNumeric.induct with
  | case1 a b c rest ih =>
    rw [packNumeric, List.length_append, length_bitsOf, ih]
    exact (numericLength_add_three rest.length).symm
  | case2 a b => simp [packNumeric, numericLength]
  | case3 a => simp [packNumeric, numericLength]
  | case4 => rfl

theorem length_packAlnum (s : List Byte) : (packAlnum s).length = alnumLength s.length := by
  induction s using packAlnum.induct with
  | case1 a b rest ih =>
    simp only [packAlnum, List.length_append, length_bitsOf, ih, List.length_cons, alnumLength]
    omega
  | case2 a => simp [packAlnum, alnumLength]
  | case3 => rfl

@[simp] theorem length_header (ind : BitVec 4) (c n : Nat) : (header ind c n).length = 4 + c := by
  simp [header, Config.modeBits]

theorem length_terminate (b : BitSeq) (d : Nat) (h : b.length ≤ 8 * d) :
    b.length ≤ (terminate b d).length ∧ (terminate b d).length ≤ 8 * d := by
  simp only [terminate, List.length_append, length_zeroBits]
  omega

@[simp] theorem length_padBytes (k n : Nat) : (padBytes k n).length = 8 * n := by
  induction n generalizing k with
  | zero => rfl
  | succ n ih => rw [padBytes, List.length_append, length_bitsOf, ih]; omega

theorem length_alignToByte (b : BitSeq) : (alignToByte b).length % 8 = 0 ∧ b.length ≤ (alignToByte b).length ∧
    (alignToByte b).length < b.length + 8 := by
  simp only [alignToByte, List.length_append, length_zeroBits]
  omega

/-- Padding ends at the capacity exactly (R146). -/
theorem length_padTo (b : BitSeq) (d : Nat) (h : b.length ≤ 8 * d) : (padTo b d).length = 8 * d := by
  have := length_alignToByte b
  rw [padTo, List.length_append, length_padBytes]
  omega

end Sys2Proof.Machine
end

