-- ==== Sys2Proof/Laws/State.lean ====
section
/-! SUPPORT. What each named update of the state does to each field. -/

namespace Sys2Proof.Machine

-- A block's tables as one value

@[simp] theorem tables_exp (b : Block) : b.tables.exp = b.exp := rfl
@[simp] theorem tables_log (b : Block) : b.tables.log = b.log := rfl

/-- Blocks with the same two tables have the same tables as one value. -/
theorem tables_congr {a b : Block} (he : a.exp = b.exp) (hl : a.log = b.log) : a.tables = b.tables := by
  simp [Block.tables, he, hl]

section raise
variable (e : ErrCode) (w : Word) (s : State)

@[simp] theorem raise_tinit : (raise e w s).tinit = s.tinit := by unfold raise; split <;> simp_all
@[simp] theorem raise_exp : (raise e w s).exp = s.exp := by unfold raise; split <;> simp_all
@[simp] theorem raise_log : (raise e w s).log = s.log := by unfold raise; split <;> simp_all
@[simp] theorem raise_res : (raise e w s).res = s.res := by unfold raise; split <;> simp_all
@[simp] theorem raise_polys : (raise e w s).polys = s.polys := by unfold raise; split <;> simp_all
@[simp] theorem raise_str : (raise e w s).str = s.str := by unfold raise; split <;> simp_all
@[simp] theorem raise_mode : (raise e w s).mode = s.mode := by unfold raise; split <;> simp_all
@[simp] theorem raise_ccb : (raise e w s).ccb = s.ccb := by unfold raise; split <;> simp_all
@[simp] theorem raise_dcw : (raise e w s).dcw = s.dcw := by unfold raise; split <;> simp_all
@[simp] theorem raise_bits : (raise e w s).bits = s.bits := by unfold raise; split <;> simp_all
@[simp] theorem raise_err : (raise e w s).err = true := by unfold raise; split <;> simp_all
@[simp] theorem raise_errcode : (raise e w s).errcode = if s.err then s.errcode else e.code := by unfold raise; split <;> simp_all
@[simp] theorem raise_errinfo : (raise e w s).errinfo = if s.err then s.errinfo else w := by unfold raise; split <;> simp_all
@[simp] theorem raise_script : (raise e w s).script = s.script := by unfold raise; split <;> simp_all
@[simp] theorem raise_reply : (raise e w s).reply = s.reply := by unfold raise; split <;> simp_all

end raise

section clearError
variable (s : State)

@[simp] theorem clearError_tinit : (clearError s).tinit = s.tinit := rfl
@[simp] theorem clearError_exp : (clearError s).exp = s.exp := rfl
@[simp] theorem clearError_log : (clearError s).log = s.log := rfl
@[simp] theorem clearError_res : (clearError s).res = s.res := rfl
@[simp] theorem clearError_polys : (clearError s).polys = s.polys := rfl
@[simp] theorem clearError_str : (clearError s).str = s.str := rfl
@[simp] theorem clearError_mode : (clearError s).mode = s.mode := rfl
@[simp] theorem clearError_ccb : (clearError s).ccb = s.ccb := rfl
@[simp] theorem clearError_dcw : (clearError s).dcw = s.dcw := rfl
@[simp] theorem clearError_bits : (clearError s).bits = s.bits := rfl
@[simp] theorem clearError_err : (clearError s).err = false := rfl
@[simp] theorem clearError_errcode : (clearError s).errcode = 0 := rfl
@[simp] theorem clearError_errinfo : (clearError s).errinfo = 0 := rfl
@[simp] theorem clearError_script : (clearError s).script = s.script := rfl
@[simp] theorem clearError_reply : (clearError s).reply = s.reply := rfl

end clearError

section setPoly
variable (s : State) (k : PReg) (v : Poly)

@[simp] theorem setPoly_tinit : (s.setPoly k v).tinit = s.tinit := rfl
@[simp] theorem setPoly_exp : (s.setPoly k v).exp = s.exp := rfl
@[simp] theorem setPoly_log : (s.setPoly k v).log = s.log := rfl
@[simp] theorem setPoly_res : (s.setPoly k v).res = s.res := rfl
@[simp] theorem setPoly_polys : (s.setPoly k v).polys = s.polys.set k v := rfl
@[simp] theorem setPoly_str : (s.setPoly k v).str = s.str := rfl
@[simp] theorem setPoly_mode : (s.setPoly k v).mode = s.mode := rfl
@[simp] theorem setPoly_ccb : (s.setPoly k v).ccb = s.ccb := rfl
@[simp] theorem setPoly_dcw : (s.setPoly k v).dcw = s.dcw := rfl
@[simp] theorem setPoly_bits : (s.setPoly k v).bits = s.bits := rfl
@[simp] theorem setPoly_err : (s.setPoly k v).err = s.err := rfl
@[simp] theorem setPoly_errcode : (s.setPoly k v).errcode = s.errcode := rfl
@[simp] theorem setPoly_errinfo : (s.setPoly k v).errinfo = s.errinfo := rfl
@[simp] theorem setPoly_script : (s.setPoly k v).script = s.script := rfl
@[simp] theorem setPoly_reply : (s.setPoly k v).reply = s.reply := rfl

end setPoly

section useTables
variable (s : State)

@[simp] theorem useTables_tinit : (useTables s).tinit = true := by unfold useTables; split <;> simp_all
@[simp] theorem useTables_exp : (useTables s).exp = if s.tinit then s.exp else (buildTables s.tables).exp := by unfold useTables; split <;> simp_all
@[simp] theorem useTables_log : (useTables s).log = if s.tinit then s.log else (buildTables s.tables).log := by unfold useTables; split <;> simp_all
theorem useTables_tables : (useTables s).tables = if s.tinit then s.tables else buildTables s.tables := by
  unfold useTables; split <;> rfl
@[simp] theorem useTables_res : (useTables s).res = s.res := by unfold useTables; split <;> simp_all
@[simp] theorem useTables_polys : (useTables s).polys = s.polys := by unfold useTables; split <;> simp_all
@[simp] theorem useTables_str : (useTables s).str = s.str := by unfold useTables; split <;> simp_all
@[simp] theorem useTables_mode : (useTables s).mode = s.mode := by unfold useTables; split <;> simp_all
@[simp] theorem useTables_ccb : (useTables s).ccb = s.ccb := by unfold useTables; split <;> simp_all
@[simp] theorem useTables_dcw : (useTables s).dcw = s.dcw := by unfold useTables; split <;> simp_all
@[simp] theorem useTables_bits : (useTables s).bits = s.bits := by unfold useTables; split <;> simp_all
@[simp] theorem useTables_err : (useTables s).err = s.err := by unfold useTables; split <;> simp_all
@[simp] theorem useTables_errcode : (useTables s).errcode = s.errcode := by unfold useTables; split <;> simp_all
@[simp] theorem useTables_errinfo : (useTables s).errinfo = s.errinfo := by unfold useTables; split <;> simp_all
@[simp] theorem useTables_script : (useTables s).script = s.script := by unfold useTables; split <;> simp_all
@[simp] theorem useTables_reply : (useTables s).reply = s.reply := by unfold useTables; split <;> simp_all

end useTables

section polys

@[simp] theorem PolyRegs.get_set_same (p : PolyRegs) (k : PReg) (v : Poly) : (p.set k v).get k = v := by
  cases k <;> rfl

theorem PolyRegs.get_set_other (p : PolyRegs) {k j : PReg} (v : Poly) (h : j ≠ k) : (p.set k v).get j = p.get j := by
  cases k <;> cases j <;> first | rfl | exact absurd rfl h

/-- The whole of a register write: the register named holds the value, every other one is unchanged (R24). -/
theorem PolyRegs.get_set (p : PolyRegs) (k j : PReg) (v : Poly) :
    (p.set k v).get j = if j = k then v else p.get j := by
  split
  · next h => rw [h, PolyRegs.get_set_same]
  · next h => exact PolyRegs.get_set_other p v h

theorem State.poly_setPoly (s : State) (k j : PReg) (v : Poly) :
    (s.setPoly k v).poly j = if j = k then v else s.poly j := PolyRegs.get_set s.polys k j v

@[simp] theorem State.poly_setPoly_same (s : State) (k : PReg) (v : Poly) : (s.setPoly k v).poly k = v :=
  PolyRegs.get_set_same s.polys k v

@[simp] theorem useTables_poly (s : State) (k : PReg) : (useTables s).poly k = s.poly k := by
  simp [State.poly]

/-- Two register files that agree at every designator are equal. -/
theorem PolyRegs.ext_get {p q : PolyRegs} (h : ∀ k, p.get k = q.get k) : p = q := by
  cases p; cases q
  simpa [PolyRegs.get] using And.intro (h .p0) (And.intro (h .p1) (And.intro (h .p2) (h .p3)))

end polys

/-- The guard on a block whose tables are built changes nothing (R105). -/
theorem useTables_of_tinit {s : State} (h : s.tinit = true) : useTables s = s := by simp [useTables, h]

@[simp] theorem useTables_useTables (s : State) : useTables (useTables s) = useTables s :=
  useTables_of_tinit (useTables_tinit s)

/-- The guard as a record update: only the tables and TINIT can change (R105). -/
theorem useTables_eq (s : State) : useTables s = { s with exp := (useTables s).exp, log := (useTables s).log, tinit := true } := by
  unfold useTables
  split
  · next h => rw [← h]
  · rfl

/-- A register write after the guard, as one record update. -/
theorem setPoly_useTables (s : State) (k : PReg) (v : Poly) : (useTables s).setPoly k v =
    { s with exp := (useTables s).exp, log := (useTables s).log, tinit := true, polys := s.polys.set k v } := by
  rw [State.setPoly]
  conv_lhs => rw [useTables_eq s]

/-- A second error changes nothing (R181). -/
theorem raise_of_err {e : ErrCode} {w : Word} {s : State} (h : s.err = true) : raise e w s = s := by simp [raise, h]

/-- The first error records its code and detail and nothing else (R181, R186). -/
theorem raise_of_no_err {e : ErrCode} {w : Word} {s : State} (h : s.err = false) :
    raise e w s = { s with err := true, errcode := e.code, errinfo := w } := by simp [raise, h]

end Sys2Proof.Machine
end

