-- ==== Sys2Proof/Laws/Tables.lean ====
section
/-! SUPPORT. The construction loop of spec/41_field_engine.md R100 leaves the values of R110, and the two tables are inverse
(R104 (a), (b)). -/

namespace Sys2Proof.Machine

set_option maxRecDepth 4000

/-- The pairs (index, element) the construction loop visits. -/
def visited : (k i x : Nat) → List (Nat × Nat)
  | 0, _, _ => []
  | k + 1, i, x => (i, x) :: visited k (i + 1) (doubleMod x)

/-- Writing a list of (position, value) pairs, in order. -/
def writeAll (ps : List (Nat × Nat)) (l : List Byte) : List Byte :=
  ps.foldl (fun l p => l.set p.1 (BitVec.ofNat 8 p.2)) l

theorem constructionLoop_eq (k i x : Nat) (t : Tables) :
    constructionLoop k i x t =
      { exp := writeAll (visited k i x) t.exp, log := writeAll ((visited k i x).map Prod.swap) t.log } := by
  induction k generalizing i x t with
  | zero => rfl
  | succ k ih => rw [constructionLoop, ih]; rfl

@[simp] theorem length_writeAll (ps : List (Nat × Nat)) (l : List Byte) : (writeAll ps l).length = l.length := by
  induction ps generalizing l with
  | nil => rfl
  | cons p ps ih => exact (ih _).trans (List.length_set ..)

/-- A position that is not written keeps its value. -/
theorem getElem?_writeAll_of_not_mem {ps : List (Nat × Nat)} {n : Nat} (l : List Byte) (h : n ∉ ps.map Prod.fst) :
    (writeAll ps l)[n]? = l[n]? := by
  induction ps generalizing l with
  | nil => rfl
  | cons p ps ih =>
    simp only [List.map_cons, List.mem_cons, not_or] at h
    exact (ih (l.set p.1 (BitVec.ofNat 8 p.2)) h.2).trans (List.getElem?_set_ne (Ne.symm h.1))

/-- A position that is written once holds the value written. -/
theorem getElem?_writeAll_of_mem {ps : List (Nat × Nat)} {p : Nat × Nat} (l : List Byte)
    (hnd : (ps.map Prod.fst).Nodup) (h : p ∈ ps) (hlt : p.1 < l.length) :
    (writeAll ps l)[p.1]? = some (BitVec.ofNat 8 p.2) := by
  induction ps generalizing l with
  | nil => cases h
  | cons q ps ih =>
    simp only [List.map_cons, List.nodup_cons] at hnd
    rcases List.mem_cons.1 h with rfl | h
    · exact (getElem?_writeAll_of_not_mem _ hnd.1).trans (by simp [hlt])
    · exact ih (l.set q.1 (BitVec.ofNat 8 q.2)) hnd.2 h (by simpa using hlt)

/-- The loop visits the rows of R110 in order. -/
theorem visited_eq : visited 255 0 1 = expRows.flatten.zipIdx.map fun p => (p.2, p.1.toNat) := by decide +kernel

theorem length_expRows : expRows.flatten.length = 255 := by decide +kernel

theorem length_builtExp : builtExp.length = 256 := by decide +kernel

theorem length_builtLogFrom1 : builtLogFrom1.length = 255 := by decide +kernel

/-- `EXP[LOG[n]] = n` on the built tables, for all `n` in 1..255 at once (R104 (a)). -/
theorem exp_of_log : builtLogFrom1.map (fun b => builtExp.getD b.toNat 0) = (List.range 255).map (fun n => BitVec.ofNat 8 (n + 1)) := by
  decide +kernel

/-- `LOG[EXP[i]] = i` on the built tables, for all `i` in 0..254 at once (R104 (b)). -/
theorem log_of_exp : expRows.flatten.map (fun b => builtLogFrom1.getD (b.toNat - 1) 0) = (List.range 255).map (BitVec.ofNat 8) := by
  decide +kernel

/-- Every logarithm is at most 254. -/
theorem log_le : ∀ b ∈ builtLogFrom1, b.toNat < 255 := by decide +kernel

/-- No power is 0. -/
theorem exp_ne_zero : ∀ b ∈ expRows.flatten, b ≠ 0 := by decide +kernel

theorem nodup_expRows : expRows.flatten.Nodup := by
  refine List.Nodup.of_map (fun b => builtLogFrom1.getD (b.toNat - 1) 0) ?_
  rw [log_of_exp]
  refine List.Nodup.map_on (fun x hx y hy h => ?_) List.nodup_range
  have hx := List.mem_range.1 hx
  have hy := List.mem_range.1 hy
  have := congrArg BitVec.toNat h
  simp only [BitVec.toNat_ofNat] at this
  omega

/-- `EXP[LOG[n]] = n` for one `n` (R104 (a)). -/
theorem builtExp_log (n : Nat) (h0 : n ≠ 0) (h : n < 256) :
    builtExp.getD (builtLogFrom1.getD (n - 1) 0).toNat 0 = BitVec.ofNat 8 n := by
  have hl : n - 1 < builtLogFrom1.length := by rw [length_builtLogFrom1]; omega
  have := congrArg (·[n - 1]?) exp_of_log
  simp only [List.getElem?_map, List.getElem?_eq_getElem hl, List.getElem?_range (show n - 1 < 255 by omega),
    Option.map_some, Option.some.injEq] at this
  rw [List.getD_eq_getElem _ _ hl, this]
  congr 1; omega

/-- An entry of the exponent table below the last. -/
theorem builtExp_getD (i : Nat) (h : i < 255) : builtExp.getD i 0 = expRows.flatten.getD i 0 := by
  rw [builtExp, List.getD_append _ _ _ _ (by rw [length_expRows]; exact h)]

/-- `LOG[EXP[i]] = i` for one `i` (R104 (b)). -/
theorem builtLog_exp (i : Nat) (h : i < 255) :
    builtLogFrom1.getD ((builtExp.getD i 0).toNat - 1) 0 = BitVec.ofNat 8 i := by
  have hl : i < expRows.flatten.length := by rw [length_expRows]; exact h
  have := congrArg (·[i]?) log_of_exp
  simp only [List.getElem?_map, List.getElem?_eq_getElem hl, List.getElem?_range h, Option.map_some,
    Option.some.injEq] at this
  rw [builtExp_getD i h, List.getD_eq_getElem _ _ hl, this]

theorem builtExp_ne_zero (i : Nat) (h : i < 255) : builtExp.getD i 0 ≠ 0 := by
  have hl : i < expRows.flatten.length := by rw [length_expRows]; exact h
  rw [builtExp_getD i h, List.getD_eq_getElem _ _ hl]
  exact exp_ne_zero _ (List.getElem_mem hl)

theorem builtLog_lt (n : Nat) : (builtLogFrom1.getD n 0).toNat < 255 := by
  by_cases hl : n < builtLogFrom1.length
  · rw [List.getD_eq_getElem _ _ hl]; exact log_le _ (List.getElem_mem hl)
  · rw [List.getD_eq_default _ _ (Nat.le_of_not_lt hl)]; decide

theorem visited_fst : (visited 255 0 1).map Prod.fst = List.range 255 := by
  rw [visited_eq, List.map_map, ← length_expRows]
  exact List.zipIdx_map_snd 0 _ |>.trans (by simp [List.range_eq_range'])

/-- The exponent table the loop leaves is that of R110. -/
theorem writeAll_exp (l : List Byte) (h : l.length = 256) :
    (writeAll (visited 255 0 1) l).set 255 Config.exp255 = builtExp := by
  refine List.ext_getElem? fun n => ?_
  rcases Nat.lt_trichotomy n 255 with hn | rfl | hn
  · have hl : n < expRows.flatten.length := by rw [length_expRows]; exact hn
    have hmem : (n, (expRows.flatten[n]).toNat) ∈ visited 255 0 1 := by
      rw [visited_eq]
      refine List.mem_map.2 ⟨(expRows.flatten[n], n), ?_, rfl⟩
      simp [List.mem_zipIdx_iff_getElem?]
    have := getElem?_writeAll_of_mem l (by rw [visited_fst]; exact List.nodup_range) hmem (by simp only; omega)
    rw [List.getElem?_set_ne (by omega), this, builtExp, List.getElem?_append_left hl, List.getElem?_eq_getElem hl]
    simp
  · rw [List.getElem?_set_self (by simp [h]), builtExp, List.getElem?_append_right (by rw [length_expRows]),
      length_expRows]; rfl
  · rw [List.getElem?_eq_none (by simp [h]; omega), List.getElem?_eq_none (by rw [length_builtExp]; omega)]

/-- The logarithm table the loop leaves is that of R110, its entry 0 as it was. -/
theorem writeAll_log (l : List Byte) (h : l.length = 256) :
    writeAll ((visited 255 0 1).map Prod.swap) l = l.getD 0 0 :: builtLogFrom1 := by
  have hkeys : ((visited 255 0 1).map Prod.swap).map Prod.fst = expRows.flatten.map BitVec.toNat := by
    rw [visited_eq, List.map_map, List.map_map]
    conv_rhs => rw [← List.zipIdx_map_fst 0 expRows.flatten, List.map_map]
    rfl
  have hnd : (((visited 255 0 1).map Prod.swap).map Prod.fst).Nodup := by
    rw [hkeys]; exact nodup_expRows.map fun _ _ => BitVec.eq_of_toNat_eq
  refine List.ext_getElem? fun n => ?_
  rcases Nat.eq_zero_or_pos n with rfl | hn
  · rw [getElem?_writeAll_of_not_mem]
    · simp only [List.getElem?_cons_zero]
      rw [List.getElem?_eq_getElem (by omega), List.getD_eq_getElem _ _ (by omega)]
    · rw [hkeys]; intro hmem
      obtain ⟨b, hb, hb0⟩ := List.mem_map.1 hmem
      exact exp_ne_zero b hb (BitVec.eq_of_toNat_eq hb0)
  · by_cases hlt : n < 256
    · have hlog := builtLog_lt (n - 1)
      have hexp := builtExp_log n (by omega) hlt
      generalize hi : (builtLogFrom1.getD (n - 1) 0).toNat = i at hlog hexp
      rw [builtExp_getD i hlog] at hexp
      have hl : i < expRows.flatten.length := by rw [length_expRows]; exact hlog
      rw [List.getD_eq_getElem _ _ hl] at hexp
      have hmem : (n, i) ∈ (visited 255 0 1).map Prod.swap := by
        rw [visited_eq, List.map_map]
        refine List.mem_map.2 ⟨(expRows.flatten[i], i), ?_, ?_⟩
        · simp [List.mem_zipIdx_iff_getElem?]
        · simp only [Function.comp, Prod.swap, hexp, BitVec.toNat_ofNat]
          congr 1; omega
      have := getElem?_writeAll_of_mem l hnd hmem (by simp only; omega)
      have hcons : (l.getD 0 0 :: builtLogFrom1)[n]? = builtLogFrom1[n - 1]? := by
        conv_lhs => rw [show n = n - 1 + 1 by omega]
        exact List.getElem?_cons_succ
      have hl1 : n - 1 < builtLogFrom1.length := by rw [length_builtLogFrom1]; omega
      rw [this, hcons, List.getElem?_eq_getElem hl1, ← hi, List.getD_eq_getElem _ _ hl1]
      simp
    · rw [List.getElem?_eq_none (by simp [h]; omega),
        List.getElem?_eq_none (by simp [length_builtLogFrom1]; omega)]

/-- BuildTables as R100 writes it leaves the values of R110 and `LOG[0]` as it was. -/
theorem constructTables_eq (t : Tables) (he : t.exp.length = 256) (hl : t.log.length = 256) :
    constructTables t = buildTables t := by
  simp only [constructTables, constructionLoop_eq, buildTables, writeAll_exp _ he, writeAll_log _ hl]

/-- Built tables have the content of R21 and R22. -/
theorem buildTables_built (t : Tables) : (buildTables t).Built := ⟨rfl, rfl⟩

theorem buildTables_length_exp (t : Tables) : (buildTables t).exp.length = 256 := length_builtExp

theorem buildTables_length_log (t : Tables) : (buildTables t).log.length = 256 := by
  rw [buildTables, List.length_cons, length_builtLogFrom1]

/-- After the guard the tables are built, in every state whose `TINIT` tells the truth (R105, R23). -/
theorem useTables_built {s : State} (h : s.TablesReady) : (useTables s).tables.Built := by
  rw [useTables_tables]
  split
  · next ht => exact h ht
  · exact buildTables_built _

theorem Tables.Built.expAt {t : Tables} (h : t.Built) (i : Nat) : t.expAt i = builtExp.getD i 0 := by
  rw [Tables.expAt, h.exp]

theorem Tables.Built.logAt {t : Tables} (h : t.Built) {n : Nat} (hn : n ≠ 0) :
    t.logAt n = builtLogFrom1.getD (n - 1) 0 := by
  obtain ⟨m, rfl⟩ := Nat.exists_eq_succ_of_ne_zero hn
  have ht := h.log
  rw [Tables.logAt]
  cases hlog : t.log with
  | nil => rw [hlog] at ht; exact absurd (congrArg List.length ht) (by rw [length_builtLogFrom1]; decide)
  | cons a l => rw [hlog] at ht; simp only [List.tail_cons] at ht; rw [ht]; rfl

end Sys2Proof.Machine
end

