-- ==== Sys2Proof/Laws/Field.lean ====
section
/-! SUPPORT. The arithmetic of GF(256): the table multiplication is the carry-less product (spec/41_field_engine.md R104 (c)),
and the laws of that product. -/

namespace Sys2Proof.Machine

@[simp] theorem timesX_zero : timesX 0#8 = 0#8 := rfl

/-- Doubling distributes over field addition. -/
theorem timesX_xor (a b : Byte) : timesX (a ^^^ b) = timesX a ^^^ timesX b := by
  unfold timesX
  rw [BitVec.msb_xor, BitVec.shiftLeft_xor_distrib]
  have self : (0x1D : Byte) ^^^ 0x1D = 0 := rfl
  cases a.msb <;> cases b.msb <;> simp only [bne_self_eq_false, Bool.bne_true, Bool.bne_false, Bool.not_false, Bool.false_eq_true,
    if_true, if_false]
  · ac_rfl
  · ac_rfl
  · have : a <<< 1 ^^^ (0x1D : Byte) ^^^ (b <<< 1 ^^^ (0x1D : Byte)) = a <<< 1 ^^^ b <<< 1 ^^^ ((0x1D : Byte) ^^^ 0x1D) := by ac_rfl
    rw [this, self]
    exact (BitVec.xor_zero).symm

@[simp] theorem carrylessMul_zero_left (y : Byte) (n : Nat) : carrylessMul 0#8 y n = 0#8 := by
  induction n generalizing y with
  | zero => rfl
  | succ n ih => simp [carrylessMul, ih]

theorem carrylessMul_zero_right (x : Byte) (n : Nat) : carrylessMul x 0#8 n = 0#8 := by
  induction n with
  | zero => rfl
  | succ n ih => simp [carrylessMul, ih]

/-- The product distributes over field addition on the left. -/
theorem carrylessMul_xor_left (x x' y : Byte) (n : Nat) :
    carrylessMul (x ^^^ x') y n = carrylessMul x y n ^^^ carrylessMul x' y n := by
  induction n generalizing y with
  | zero => simp [carrylessMul]
  | succ n ih =>
    simp only [carrylessMul, ih, timesX_xor]
    split
    · ac_rfl
    · simp only [BitVec.ofNat_eq_ofNat, BitVec.xor_zero]

/-- Doubling commutes with the product. -/
theorem carrylessMul_timesX (x y : Byte) (n : Nat) : carrylessMul (timesX x) y n = timesX (carrylessMul x y n) := by
  induction n generalizing y with
  | zero => simp [carrylessMul]
  | succ n ih =>
    simp only [carrylessMul, ih, timesX_xor]
    split
    · rfl
    · simp only [BitVec.ofNat_eq_ofNat, timesX_zero]

@[simp] theorem fieldMul_zero_left (y : Byte) : fieldMul 0#8 y = 0#8 := carrylessMul_zero_left y 8

@[simp] theorem fieldMul_zero_right (x : Byte) : fieldMul x 0#8 = 0#8 := carrylessMul_zero_right x 8

theorem fieldMul_xor_left (x x' y : Byte) : fieldMul (x ^^^ x') y = fieldMul x y ^^^ fieldMul x' y :=
  carrylessMul_xor_left x x' y 8

theorem fieldMul_timesX (x y : Byte) : fieldMul (timesX x) y = timesX (fieldMul x y) := carrylessMul_timesX x y 8

/-- 1 is the unit of the product. -/
theorem fieldMul_one_left (y : Byte) : fieldMul 1 y = y := by revert y; decide +kernel

/-- The same with 1 in the form `simp` gives it. -/
@[simp] theorem fieldMul_oneBits_left (y : Byte) : fieldMul 1#8 y = y := fieldMul_one_left y

/-- The powers of 2 multiply by adding exponents. -/
theorem fieldMul_pow2 (i j : Nat) : fieldMul (fieldPow2 i) (fieldPow2 j) = fieldPow2 (i + j) := by
  induction i with
  | zero => rw [fieldPow2, fieldMul_one_left, Nat.zero_add]
  | succ i ih => rw [fieldPow2, fieldMul_timesX, ih, Nat.succ_add, fieldPow2]

theorem fieldPow2_add (i j : Nat) : fieldPow2 (i + j) = fieldMul (fieldPow2 i) (fieldPow2 j) := (fieldMul_pow2 i j).symm

/-- Each entry of the exponent table is the double of the one before. -/
theorem builtExp_succ : ∀ i < 254, builtExp.getD (i + 1) 0 = timesX (builtExp.getD i 0) := by decide +kernel

/-- `EXP[i]` is 2 to the power `i` (R21). -/
theorem builtExp_eq_pow2 (i : Nat) (h : i < 255) : builtExp.getD i 0 = fieldPow2 i := by
  induction i with
  | zero => rfl
  | succ i ih => rw [builtExp_succ i (by omega), ih (by omega), fieldPow2]

/-- 2 has order 255: the last entry doubles to 1 (R100). -/
theorem fieldPow2_255 : fieldPow2 255 = 1 := by
  rw [fieldPow2, ← builtExp_eq_pow2 254 (by decide)]; decide +kernel

theorem fieldPow2_mod (n : Nat) : fieldPow2 (n % 255) = fieldPow2 n := by
  conv_rhs => rw [← Nat.div_add_mod n 255]
  generalize n / 255 = q
  induction q with
  | zero => simp
  | succ q ih => rw [show 255 * (q + 1) + n % 255 = 255 + (255 * q + n % 255) by omega, fieldPow2_add, fieldPow2_255,
      fieldMul_one_left, ih]

/-- The logarithm of a nonzero element, as a number below 255. -/
def fieldLog (x : Byte) : Nat := (builtLogFrom1.getD (x.toNat - 1) 0).toNat

theorem fieldLog_lt (x : Byte) : fieldLog x < 255 := builtLog_lt _

theorem toNat_ne_zero {x : Byte} (h : x ≠ 0) : x.toNat ≠ 0 := fun h0 => h (BitVec.eq_of_toNat_eq h0)

/-- Every nonzero element is a power of 2 (R104 (a)). -/
theorem fieldPow2_log {x : Byte} (h : x ≠ 0) : fieldPow2 (fieldLog x) = x := by
  rw [← builtExp_eq_pow2 _ (fieldLog_lt x), fieldLog, builtExp_log _ (toNat_ne_zero h) x.isLt]
  exact BitVec.ofNat_toNat .. |>.trans (BitVec.setWidth_eq x)

theorem fieldPow2_ne_zero (n : Nat) : fieldPow2 n ≠ 0 := by
  rw [← fieldPow2_mod, ← builtExp_eq_pow2 _ (Nat.mod_lt _ (by decide))]
  exact builtExp_ne_zero _ (Nat.mod_lt _ (by decide))

/-- The logarithm of a power (R104 (b)). -/
theorem fieldLog_pow2 {i : Nat} (h : i < 255) : fieldLog (fieldPow2 i) = i := by
  rw [fieldLog, ← builtExp_eq_pow2 i h, builtLog_exp i h, BitVec.toNat_ofNat]
  omega

theorem Tables.Built.logAt_toNat {t : Tables} (h : t.Built) {x : Byte} (hx : x ≠ 0) : (t.logAt x.toNat).toNat = fieldLog x := by
  rw [h.logAt (toNat_ne_zero hx), fieldLog]

/-- Table multiplication is the carry-less product reduced modulo 0x11D (R103, R104 (c)). -/
theorem Tables.Built.gfMul_eq {t : Tables} (h : t.Built) (x y : Byte) : gfMul t x y = fieldMul x y := by
  unfold gfMul
  split
  · next h0 => rcases h0 with rfl | rfl <;> simp [fieldMul_zero_left, fieldMul_zero_right]
  · next h0 =>
    rw [not_or] at h0
    rw [h.expAt, h.logAt_toNat h0.1, h.logAt_toNat h0.2, builtExp_eq_pow2 _ (Nat.mod_lt _ (by decide)), fieldPow2_mod,
      fieldPow2_add, fieldPow2_log h0.1, fieldPow2_log h0.2]

theorem Tables.Built.gfExp_eq {t : Tables} (h : t.Built) (n : Byte) :
    gfExp t n = if n = 255 then Config.exp255 else fieldPow2 n.toNat := by
  rw [gfExp, h.expAt]
  split
  · next hn => subst hn; rfl
  · next hn =>
    have := n.isLt
    exact builtExp_eq_pow2 _ (by
      rcases Nat.lt_or_ge n.toNat 255 with h | h
      · exact h
      · exact absurd (BitVec.eq_of_toNat_eq (show n.toNat = (255 : Byte).toNat by simp; omega)) hn)

theorem fieldMul_comm (x y : Byte) : fieldMul x y = fieldMul y x := by
  by_cases hx : x = 0
  · simp [hx]
  by_cases hy : y = 0
  · simp [hy]
  rw [← fieldPow2_log hx, ← fieldPow2_log hy, fieldMul_pow2, fieldMul_pow2, Nat.add_comm]

theorem fieldMul_assoc (x y z : Byte) : fieldMul (fieldMul x y) z = fieldMul x (fieldMul y z) := by
  by_cases hx : x = 0
  · simp [hx]
  by_cases hy : y = 0
  · simp [hy]
  by_cases hz : z = 0
  · simp [hz]
  rw [← fieldPow2_log hx, ← fieldPow2_log hy, ← fieldPow2_log hz]
  simp only [fieldMul_pow2, Nat.add_assoc]

theorem fieldMul_xor_right (x y y' : Byte) : fieldMul x (y ^^^ y') = fieldMul x y ^^^ fieldMul x y' := by
  rw [fieldMul_comm, fieldMul_xor_left, fieldMul_comm y, fieldMul_comm y']

theorem fieldMul_one_right (x : Byte) : fieldMul x 1 = x := by rw [fieldMul_comm, fieldMul_one_left]

@[simp] theorem fieldMul_oneBits_right (x : Byte) : fieldMul x 1#8 = x := fieldMul_one_right x

end Sys2Proof.Machine
end

