-- ==== Sys2Proof/Laws/ReedSolomon.lean ====
section
/-! SUPPORT. The polynomial functions: their lengths, and what they compute in the terms of Safety's reference functions
(spec/42_reed_solomon.md R121 to R124). -/

namespace Sys2Proof.Machine

@[simp] theorem length_polyMul (t : Tables) (p q : Poly) : (polyMul t p q).length = p.length + q.length - 1 := by
  simp [polyMul]

@[simp] theorem length_genPoly (t : Tables) (n : Nat) : (genPoly t n).length = n + 1 := by
  induction n with
  | zero => rfl
  | succ n ih => rw [genPoly, length_polyMul, ih]; rfl

@[simp] theorem length_xorPrefix (w s : Poly) : (xorPrefix w s).length = w.length := by
  induction w, s using xorPrefix.induct with
  | case1 a w b s ih => simp [xorPrefix, ih]
  | case2 w s h => cases w <;> cases s <;> first | rfl | exact absurd rfl (h _ _ _ _ rfl)

@[simp] theorem length_divideStep (t : Tables) (g w : Poly) : (divideStep t g w).length = w.length - 1 := by
  simp [divideStep]

@[simp] theorem length_divideLoop (t : Tables) (g : Poly) (n : Nat) (w : Poly) :
    (divideLoop t g n w).length = w.length - n := by
  induction n generalizing w with
  | zero => rfl
  | succ n ih => rw [divideLoop, ih, length_divideStep]; omega

/-- The result of a division has one coefficient fewer than the generator (R123). -/
@[simp] theorem length_rsDivide (t : Tables) (g m : Poly) : (rsDivide t g m).length = g.length - 1 := by
  simp [rsDivide]

-- Sums in GF(256)

theorem foldl_xor (l : List Byte) (a : Byte) : l.foldl (· ^^^ ·) a = a ^^^ sumOf l := by
  induction l generalizing a with
  | nil => exact (BitVec.xor_zero (x := a)).symm
  | cons b l ih =>
    have h0 : (0 : Byte) ^^^ b = b := BitVec.zero_xor
    rw [sumOf, List.foldl_cons, List.foldl_cons, ih, ih, h0, BitVec.xor_assoc]

theorem sumOf_cons (a : Byte) (l : List Byte) : sumOf (a :: l) = a ^^^ sumOf l := by
  have h0 : (0 : Byte) ^^^ a = a := BitVec.zero_xor
  rw [sumOf, List.foldl_cons, foldl_xor, h0]

theorem sumOf_append (a b : List Byte) : sumOf (a ++ b) = sumOf a ^^^ sumOf b := by
  rw [sumOf, List.foldl_append, foldl_xor]; rfl

theorem sumOf_eq_zero {l : List Byte} (h : ∀ x ∈ l, x = 0) : sumOf l = 0 := by
  induction l with
  | nil => rfl
  | cons a l ih => rw [sumOf_cons, h a List.mem_cons_self, ih (fun x hx => h x (List.mem_cons_of_mem _ hx))]; rfl

/-- Terms that are 0 may be left out at the end of a sum. -/
theorem sumOf_range_extend {n m : Nat} (f : Nat → Byte) (hnm : n ≤ m) (h : ∀ i, n ≤ i → i < m → f i = 0) :
    sumOf ((List.range n).map f) = sumOf ((List.range m).map f) := by
  obtain ⟨d, rfl⟩ := Nat.exists_eq_add_of_le hnm
  rw [List.range_add, List.map_append, sumOf_append, sumOf_eq_zero (l := List.map f (List.map _ _))]
  · exact BitVec.xor_zero.symm
  · intro x hx
    obtain ⟨j, hj, rfl⟩ := List.mem_map.mp hx
    obtain ⟨a, ha, rfl⟩ := List.mem_map.mp hj
    rw [List.mem_range] at ha
    exact h _ (by omega) (by omega)

-- The product (R121)

/-- Coefficient `k` of a product with the index range of `p` and with the index range `0..k` (R121). -/
theorem productSum_eq (p q : Poly) (k : Nat) :
    sumOf ((List.range p.length).map fun i =>
      if i ≤ k ∧ k - i < q.length then fieldMul (p.getD i 0) (q.getD (k - i) 0) else 0) =
    sumOf ((List.range (k + 1)).map fun i => fieldMul (p.getD i 0) (q.getD (k - i) 0)) := by
  let f : Nat → Byte := fun i => if i ≤ k ∧ k - i < q.length then fieldMul (p.getD i 0) (q.getD (k - i) 0) else 0
  have e1 : sumOf ((List.range p.length).map f) = sumOf ((List.range (max p.length (k + 1))).map f) :=
    sumOf_range_extend f (by omega) fun i h1 _ => by
      simp only [f]
      split
      · rw [List.getD_eq_default _ _ h1]; exact fieldMul_zero_left _
      · rfl
  have e2 : sumOf ((List.range (k + 1)).map f) = sumOf ((List.range (max p.length (k + 1))).map f) :=
    sumOf_range_extend f (by omega) fun i h1 _ => by simp only [f]; rw [if_neg (by omega)]
  refine (e1.trans e2.symm).trans (congrArg sumOf (List.map_congr_left fun i hi => ?_))
  rw [List.mem_range] at hi
  simp only [f]
  split
  · rfl
  · rw [List.getD_eq_default q _ (by omega)]; exact (fieldMul_zero_right _).symm

/-- The product over built tables is the product over the carry-less multiplication (R121, R104 (c)). -/
theorem Tables.Built.polyMul_eq {t : Tables} (h : t.Built) (p q : Poly) : polyMul t p q = refMul p q := by
  refine List.map_congr_left fun k _ => ?_
  rw [← productSum_eq]
  simp only [productTerms, h.gfMul_eq]
  rfl

@[simp] theorem length_refMul (p q : Poly) : (refMul p q).length = p.length + q.length - 1 := by simp [refMul]

/-- Every coefficient of a product, a coefficient beyond the end being the empty sum 0. -/
theorem refMul_getD (p q : Poly) (k : Nat) (hp : p ≠ []) (hq : q ≠ []) :
    (refMul p q).getD k 0 = sumOf ((List.range (k + 1)).map fun i => fieldMul (p.getD i 0) (q.getD (k - i) 0)) := by
  by_cases hk : k < p.length + q.length - 1
  · simp [refMul, List.getD_eq_getElem?_getD, hk]
  · have hp' := List.length_pos_of_ne_nil hp
    have hq' := List.length_pos_of_ne_nil hq
    rw [List.getD_eq_default _ _ (by simpa using hk), sumOf_eq_zero]
    intro x hx
    obtain ⟨i, hi, rfl⟩ := List.mem_map.mp hx
    rw [List.mem_range] at hi
    by_cases hip : i < p.length
    · rw [List.getD_eq_default q _ (by omega)]; exact fieldMul_zero_right _
    · rw [List.getD_eq_default p _ (by omega)]; exact fieldMul_zero_left _

/-- The generator polynomial over built tables is the product of its factors (R122). -/
theorem Tables.Built.genPoly_eq {t : Tables} (h : t.Built) (n : Nat) (hn : n ≤ 255) : genPoly t n = refGen n := by
  induction n with
  | zero => rfl
  | succ n ih =>
    have e : (BitVec.ofNat 8 n).toNat = n := by simp; omega
    rw [genPoly, refGen, ih (by omega), h.polyMul_eq, h.gfExp_eq, if_neg, e]
    intro h0
    have := congrArg BitVec.toNat h0
    rw [e] at this
    simp at this
    omega

end Sys2Proof.Machine
end

