-- ==== Sys2Proof/Laws/Exec.lean ====
section
/-! SUPPORT. What a command can do, said once. -/

namespace Sys2Proof.Machine

/-- What a successful command may have done to the state (R24 to R30, R105, R186): the whole list, one line a kind
of destination. -/
inductive Effect (s : State) : Instr → State → Prop where
  | tinit : Effect s .tinit (useTables s)
  | eclr : Effect s .eclr (clearError s)
  | gfexp (n r) : Effect s (.gfexp n) { useTables s with res := r }
  | gflog (n r) (h : n ≠ 0) : Effect s (.gflog n) { useTables s with res := r }
  | gfmul (x y r) : Effect s (.gfmul x y) { useTables s with res := r }
  | pclr (pd) : Effect s (.pclr pd) (s.setPoly pd [])
  | pmul (pd pa pb r) (h : r.length ≤ Config.pmax) : Effect s (.pmul pd pa pb) ((useTables s).setPoly pd r)
  | genp (pd n r) (h : r.length ≤ Config.pmax) : Effect s (.genp pd n) ((useTables s).setPoly pd r)
  | rsdiv (pd pg pm r) (h : r.length < (s.poly pg).length) : Effect s (.rsdiv pd pg pm) ((useTables s).setPoly pd r)
  | cwld (pd off len r) (h : r.length = len.toNat) : Effect s (.cwld pd off len) (s.setPoly pd r)
  | sclr : Effect s .sclr { s with str := [] }
  | msel : Effect s .msel { s with mode := classify s.str }
  | bclr : Effect s .bclr { s with bits := [] }
  | pkhdr (b) (h : b.length ≤ Config.bmax) : Effect s .pkhdr { s with bits := b }
  | pknum (b) (h : b.length ≤ Config.bmax) : Effect s .pknum { s with bits := b }
  | pkaln (b) (h : b.length ≤ Config.bmax) : Effect s .pkaln { s with bits := b }
  | pktrm (b) (h : b.length ≤ s.capacity) : Effect s .pktrm { s with bits := b }
  | pkpad (b) (h : b.length = s.capacity) : Effect s .pkpad { s with bits := b }
  | pack (b) (h : b.length = s.capacity) : Effect s .pack { s with mode := classify s.str, bits := b }

/-- The errors each command can raise (R182, column "who"). -/
inductive Raises : Instr → ErrCode → Prop where
  | gflog : Raises (.gflog 0) .dom
  | pmulOper (pd pa pb) : Raises (.pmul pd pa pb) .oper
  | pmulLen (pd pa pb) : Raises (.pmul pd pa pb) .len
  | rsdiv (pd pg pm) : Raises (.rsdiv pd pg pm) .oper
  | cwld (pd off len) : Raises (.cwld pd off len) .oper
  | pkhdrMode : Raises .pkhdr .mode
  | pkhdrCnt : Raises .pkhdr .cnt
  | pkhdrLen : Raises .pkhdr .len
  | pknumChar : Raises .pknum .char
  | pknumLen : Raises .pknum .len
  | pkalnChar : Raises .pkaln .char
  | pkalnLen : Raises .pkaln .len
  | pktrm : Raises .pktrm .cap
  | pkpad : Raises .pkpad .cap
  | packMode : Raises .pack .mode
  | packCnt : Raises .pack .cnt
  | packCap : Raises .pack .cap

/-- A command either has one of the effects listed for it, or ends with one of the errors listed for it and its own
word as the detail. It never stops the machine. -/
theorem exec_cases (i : Instr) (s : State) :
    (∃ t, exec i s = .next t ∧ Effect s i t) ∨ (∃ e, exec i s = .next (raise e (encode i) s) ∧ Raises i e) := by
  cases i with
  | tinit => exact .inl ⟨_, rfl, .tinit⟩
  | eclr => exact .inl ⟨_, rfl, .eclr⟩
  | gfexp n => exact .inl ⟨_, rfl, .gfexp n _⟩
  | gflog n =>
    by_cases h : n = 0
    · subst h; exact .inr ⟨.dom, rfl, .gflog⟩
    · exact .inl ⟨{ useTables s with res := (useTables s).tables.logAt n.toNat }, by
        simp only [exec, execGflog, gfLog, if_neg h], .gflog n _ h⟩
  | gfmul x y => exact .inl ⟨_, rfl, .gfmul x y _⟩
  | pclr pd => exact .inl ⟨_, rfl, .pclr pd⟩
  | pmul pd pa pb =>
    simp only [exec, execPmul]
    split
    · exact .inr ⟨.oper, rfl, .pmulOper pd pa pb⟩
    split
    · exact .inr ⟨.len, rfl, .pmulLen pd pa pb⟩
    · next h => exact .inl ⟨_, rfl, .pmul pd pa pb _ (by rw [length_polyMul]; omega)⟩
  | genp pd n =>
    have hn := n.isLt
    have h : ¬ n.toNat + 1 > Config.pmax := by simp only [Config.pmax]; omega
    simp only [exec, execGenp, h, if_false]
    exact .inl ⟨_, rfl, .genp pd n _ (by rw [length_genPoly]; omega)⟩
  | rsdiv pd pg pm =>
    simp only [exec, execRsdiv]
    split
    · exact .inr ⟨.oper, rfl, .rsdiv pd pg pm⟩
    · next lead h =>
      split
      · exact .inr ⟨.oper, rfl, .rsdiv pd pg pm⟩
      · refine .inl ⟨_, rfl, .rsdiv pd pg pm _ ?_⟩
        cases hg : s.poly pg with
        | nil => rw [hg] at h; simp at h
        | cons a g => simp
  | cwld pd off len =>
    simp only [exec, execCwld]
    split
    · exact .inr ⟨.oper, rfl, .cwld pd off len⟩
    · exact .inl ⟨_, rfl, .cwld pd off len _ (by simp)⟩
  | sclr => exact .inl ⟨_, rfl, .sclr⟩
  | msel => exact .inl ⟨_, rfl, .msel⟩
  | bclr => exact .inl ⟨_, rfl, .bclr⟩
  | pkhdr =>
    simp only [exec, execPkhdr]
    split
    · exact .inr ⟨.mode, rfl, .pkhdrMode⟩
    split
    · exact .inr ⟨.cnt, rfl, .pkhdrCnt⟩
    split
    · exact .inr ⟨.len, rfl, .pkhdrLen⟩
    · exact .inl ⟨_, rfl, .pkhdr _ (by simp only [List.length_append, length_header]; omega)⟩
  | pknum =>
    simp only [exec, execPknum]
    split
    · exact .inr ⟨.char, rfl, .pknumChar⟩
    split
    · exact .inr ⟨.len, rfl, .pknumLen⟩
    · exact .inl ⟨_, rfl, .pknum _ (by rw [List.length_append, length_packNumeric]; omega)⟩
  | pkaln =>
    simp only [exec, execPkaln]
    split
    · exact .inr ⟨.char, rfl, .pkalnChar⟩
    split
    · exact .inr ⟨.len, rfl, .pkalnLen⟩
    · exact .inl ⟨_, rfl, .pkaln _ (by rw [List.length_append, length_packAlnum]; omega)⟩
  | pktrm =>
    simp only [exec, execPktrm]
    split
    · exact .inr ⟨.cap, rfl, .pktrm⟩
    · next h => exact .inl ⟨_, rfl, .pktrm _ (length_terminate _ _ (Nat.le_of_not_lt h)).2⟩
  | pkpad =>
    simp only [exec, execPkpad]
    split
    · exact .inr ⟨.cap, rfl, .pkpad⟩
    · next h => exact .inl ⟨_, rfl, .pkpad _ (length_padTo _ _ (Nat.le_of_not_lt h))⟩
  | pack =>
    simp only [exec, execPack]
    split
    · exact .inr ⟨.mode, rfl, .packMode⟩
    split
    · exact .inr ⟨.cnt, rfl, .packCnt⟩
    split
    · exact .inr ⟨.cap, rfl, .packCap⟩
    · next h => exact .inl ⟨_, rfl, .pack _ (length_padTo _ _ (length_terminate _ _ (Nat.le_of_not_lt h)).2)⟩

end Sys2Proof.Machine
end

