-- ==== Sys2Proof/Laws/PerInstr.lean ====
section
/-! SUPPORT. The per-instruction family MatchesRow: a command's word fits the match and mask of its row of
spec/30_encoding.md R84, whatever its operands. -/

namespace Sys2Proof.Laws.MatchesRow

/-- `(w and mask) = match` for the word of the command and the row of the command. -/
abbrev Statement (i : Instr) : Prop := encode i &&& (opcodeRow i).mask = (opcodeRow i).pattern

/-- A word fits a row when every bit does. -/
theorem of_bits {i : Instr}
    (h : ∀ k < 32, ((encodeNat i).testBit k && (opcodeRow i).mask.toNat.testBit k) = (opcodeRow i).pattern.toNat.testBit k) :
    Statement i := by
  refine BitVec.eq_of_getLsbD_eq fun k hk => ?_
  simpa [BitVec.getLsbD, encode_toNat, Nat.testBit_and] using h k hk

theorem tinit : Statement .tinit := by decide
theorem eclr : Statement .eclr := by decide
theorem sclr : Statement .sclr := by decide
theorem msel : Statement .msel := by decide
theorem bclr : Statement .bclr := by decide
theorem pkhdr : Statement .pkhdr := by decide
theorem pknum : Statement .pknum := by decide
theorem pkaln : Statement .pkaln := by decide
theorem pktrm : Statement .pktrm := by decide
theorem pkpad : Statement .pkpad := by decide
theorem pack : Statement .pack := by decide
theorem pclr (pd : PReg) : Statement (.pclr pd) := by cases pd <;> decide
theorem pmul (pd pa pb : PReg) : Statement (.pmul pd pa pb) := by cases pd <;> cases pa <;> cases pb <;> decide
theorem rsdiv (pd pg pm : PReg) : Statement (.rsdiv pd pg pm) := by cases pd <;> cases pg <;> cases pm <;> decide

/-- The shape of every row with immediates: a constant above, `m` in the `n` low bits, which the mask leaves out. -/
theorem of_low {i : Instr} (n a m : Nat) (he : encodeNat i = 2 ^ n * a + m) (hm : m < 2 ^ n)
    (hrow : ∀ k < 32, if k < n then (opcodeRow i).mask.toNat.testBit k = false ∧ (opcodeRow i).pattern.toNat.testBit k = false
      else ((2 ^ n * a).testBit k && (opcodeRow i).mask.toNat.testBit k) = (opcodeRow i).pattern.toNat.testBit k) :
    Statement i := by
  refine of_bits fun k hk => ?_
  have hr := hrow k hk
  split at hr
  · simp [hr.1, hr.2]
  · next hn =>
    have hbit : (2 ^ n * a + m).testBit k = (2 ^ n * a).testBit k := by
      rw [Nat.testBit_two_pow_mul_add _ hm, Nat.testBit_two_pow_mul]
      simp [hn, Nat.le_of_not_lt hn]
    rw [he, hbit]; exact hr

theorem gfexp (n : Byte) : Statement (.gfexp n) :=
  of_low 8 0x100000 n.toNat (by simp [encodeNat]) n.isLt (by simp only [opcodeRow]; decide)

theorem gflog (n : Byte) : Statement (.gflog n) :=
  of_low 8 0x110000 n.toNat (by simp [encodeNat]) n.isLt (by simp only [opcodeRow]; decide)

theorem gfmul (x y : Byte) : Statement (.gfmul x y) :=
  of_low 16 0x1200 (x.toNat * 2 ^ 8 + y.toNat) (by simp [encodeNat]; omega)
    (by have := x.isLt; have := y.isLt; omega) (by simp only [opcodeRow]; decide)

theorem genp (pd : PReg) (n : Byte) : Statement (.genp pd n) := by
  cases pd
  · exact of_low 8 0x220000 n.toNat (by simp [encodeNat, PReg.number]) n.isLt (by simp only [opcodeRow]; decide)
  · exact of_low 8 0x220100 n.toNat (by simp [encodeNat, PReg.number]) n.isLt (by simp only [opcodeRow]; decide)
  · exact of_low 8 0x220200 n.toNat (by simp [encodeNat, PReg.number]) n.isLt (by simp only [opcodeRow]; decide)
  · exact of_low 8 0x220300 n.toNat (by simp [encodeNat, PReg.number]) n.isLt (by simp only [opcodeRow]; decide)

theorem cwld (pd : PReg) (off : BitVec 12) (len : BitVec 10) : Statement (.cwld pd off len) :=
  of_low 24 0x24 (pd.number * 2 ^ 22 + off.toNat * 2 ^ 10 + len.toNat) (by simp [encodeNat]; omega)
    (by have := pd.number_lt; have := off.isLt; have := len.isLt; omega) (by simp only [opcodeRow]; decide)

end Sys2Proof.Laws.MatchesRow
end

