-- ==== Sys2Proof/Laws/Port.lean ====
section
/-! SUPPORT. What a host access and a step can do, said once each (spec/20_memory.md R52, R53). -/

namespace Sys2Proof.Machine

/-- What a write may do (R53), case by case. -/
inductive WriteEffect (a : Addr) (v : Word) (s : State) : State → Prop where
  | acknowledged (h : s.err = true) (ha : a = 0 ∧ v = 0x02000000) : WriteEffect a v s (clearError s)
  | ignored (h : s.err = true) (ha : ¬ (a = 0 ∧ v = 0x02000000)) : WriteEffect a v s s
  | refused (h : s.err = false) (hc : ∀ c, cellOf a = some c → c.writable = false) : WriteEffect a v s (accessError a s)
  | illegal (h : s.err = false) (ha : cellOf a = some .cmd) (hd : decode v = none) : WriteEffect a v s (raise .ill v s)
  | command (i t) (h : s.err = false) (ha : cellOf a = some .cmd) (hd : decode v = some i) (ht : Effect s i t) :
      WriteEffect a v s t
  | failed (i e) (h : s.err = false) (ha : cellOf a = some .cmd) (hd : decode v = some i) (he : Raises i e) :
      WriteEffect a v s (raise e (encode i) s)
  | ccb (h : s.err = false) (ha : cellOf a = some .ccb) : WriteEffect a v s { s with ccb := v.setWidth 5 }
  | dcw (h : s.err = false) (ha : cellOf a = some .dcw) : WriteEffect a v s { s with dcw := v.setWidth 12 }
  | strFull (h : s.err = false) (ha : cellOf a = some .spush) (hf : s.str.length = Config.smax) :
      WriteEffect a v s (raise .full (a.setWidth 32) s)
  | strPush (h : s.err = false) (ha : cellOf a = some .spush) (hf : s.str.length ≠ Config.smax) :
      WriteEffect a v s { s with str := s.str ++ [v.setWidth 8] }
  | polyFull (k) (h : s.err = false) (ha : cellOf a = some (.ppush k)) (hf : (s.poly k).length = Config.pmax) :
      WriteEffect a v s (raise .full (a.setWidth 32) s)
  | polyPush (k) (h : s.err = false) (ha : cellOf a = some (.ppush k)) (hf : (s.poly k).length ≠ Config.pmax) :
      WriteEffect a v s (s.setPoly k (s.poly k ++ [v.setWidth 8]))

/-- A write always has an outcome, and it is one of those listed. -/
theorem cellWrite_cases (a : Addr) (v : Word) (s : State) : ∃ t, cellWrite a v s = .next t ∧ WriteEffect a v s t := by
  unfold cellWrite
  cases herr : s.err with
  | true =>
    by_cases ha : a = 0 ∧ v = 0x02000000
    · exact ⟨clearError s, by simp [isAcknowledge, ha, exec, execEclr], .acknowledged herr ha⟩
    · refine ⟨s, ?_, .ignored herr ha⟩
      have : isAcknowledge a v = false := by
        rw [isAcknowledge, Bool.and_eq_false_iff]
        by_cases h0 : a = 0
        · exact .inr (by simpa using fun hv => ha ⟨h0, hv⟩)
        · exact .inl (by simpa using h0)
      simp [this]
  | false =>
    simp only [Bool.false_eq_true, if_false]
    cases hc : cellOf a with
    | none => exact ⟨_, rfl, .refused herr (by rw [hc]; simp)⟩
    | some c =>
      cases c
      case cmd =>
        simp only [cellEffect, runWord]
        cases hd : decode v with
        | none => exact ⟨_, rfl, .illegal herr hc hd⟩
        | some i =>
          rcases exec_cases i s with ⟨t, he, ht⟩ | ⟨e, he, ht⟩
          · exact ⟨t, he, .command i t herr hc hd ht⟩
          · exact ⟨_, he, .failed i e herr hc hd ht⟩
      case ccb => exact ⟨_, rfl, .ccb herr hc⟩
      case dcw => exact ⟨_, rfl, .dcw herr hc⟩
      case spush =>
        by_cases hf : s.str.length = Config.smax
        · exact ⟨_, by simp [cellEffect, pushChar, hf], .strFull herr hc hf⟩
        · exact ⟨_, by simp [cellEffect, pushChar, hf], .strPush herr hc hf⟩
      case ppush k =>
        by_cases hf : (s.poly k).length = Config.pmax
        · exact ⟨_, by simp [cellEffect, pushCoeff, hf], .polyFull k herr hc hf⟩
        · exact ⟨_, by simp [cellEffect, pushCoeff, hf], .polyPush k herr hc hf⟩
      all_goals exact ⟨_, rfl, .refused herr (by rw [hc]; intro c hc'; cases hc'; rfl)⟩

/-- A step without a coming move is idle. -/
theorem step_idle {s : State} (h : s.script = []) : step s = .next s := by simp [step, takeMove, h]

/-- A step performs the next move in the state without it. -/
theorem step_move {s : State} {m : HostMove} {rest : List HostMove} (h : s.script = m :: rest) :
    step s = perform m { s with script := rest } := by simp [step, takeMove, h]

/-- What a step may do. -/
inductive StepEffect (s : State) : State → Prop where
  | idle (h : s.script = []) : StepEffect s s
  | readOk (a v rest) (h : s.script = .read a :: rest) (hr : readable a s = some v) :
      StepEffect s { s with script := rest, reply := some v }
  | readRefused (a rest) (h : s.script = .read a :: rest) (hr : readable a s = none) :
      StepEffect s { accessError a { s with script := rest } with reply := some 0 }
  | write (a v rest t) (h : s.script = .write a v :: rest) (hw : WriteEffect a v { s with script := rest, reply := none } t) :
      StepEffect s t
  | reset (rest) (h : s.script = .reset :: rest) : StepEffect s { State.reset with script := rest }

theorem cellContent_script (s : State) (l : List HostMove) (c : Cell) :
    cellContent { s with script := l } c = cellContent s c := by cases c <;> rfl

theorem readable_script (a : Addr) (s : State) (l : List HostMove) : readable a { s with script := l } = readable a s := by
  simp only [readable]
  cases cellOf a with
  | none => rfl
  | some c => exact cellContent_script s l c

/-- A step always has a next state, and it is one of those listed. -/
theorem step_cases (s : State) : ∃ t, step s = .next t ∧ StepEffect s t := by
  cases h : s.script with
  | nil => exact ⟨s, step_idle h, .idle h⟩
  | cons m rest =>
    cases m with
    | read a =>
      cases hr : readable a s with
      | some v =>
        refine ⟨_, (step_move h).trans ?_, .readOk a v rest h hr⟩
        simp [perform, cellRead, readable_script, hr]
      | none =>
        refine ⟨_, (step_move h).trans ?_, .readRefused a rest h hr⟩
        simp [perform, cellRead, readable_script, hr]
    | write a v =>
      obtain ⟨t, ht, he⟩ := cellWrite_cases a v { s with script := rest, reply := none }
      exact ⟨t, (step_move h).trans ht, .write a v rest t h he⟩
    | reset => exact ⟨_, (step_move h).trans rfl, .reset rest h⟩

/-- A step that answers `t` has one of the effects listed. -/
theorem StepEffect.of_step {s t : State} (h : step s = .next t) : StepEffect s t := by
  obtain ⟨u, hu, he⟩ := step_cases s
  rw [h] at hu
  cases hu
  exact he

-- Independence of the host's side of the port (R65)

/-- The same block with other moves to come and another reply. -/
def State.withPort (s : State) (l : List HostMove) (r : Option Word) : State := { s with script := l, reply := r }

section withPort
variable (s : State) (l : List HostMove) (r : Option Word)

@[simp] theorem withPort_tinit : (s.withPort l r).tinit = s.tinit := rfl
@[simp] theorem withPort_exp : (s.withPort l r).exp = s.exp := rfl
@[simp] theorem withPort_log : (s.withPort l r).log = s.log := rfl
@[simp] theorem withPort_res : (s.withPort l r).res = s.res := rfl
@[simp] theorem withPort_polys : (s.withPort l r).polys = s.polys := rfl
@[simp] theorem withPort_str : (s.withPort l r).str = s.str := rfl
@[simp] theorem withPort_mode : (s.withPort l r).mode = s.mode := rfl
@[simp] theorem withPort_ccb : (s.withPort l r).ccb = s.ccb := rfl
@[simp] theorem withPort_dcw : (s.withPort l r).dcw = s.dcw := rfl
@[simp] theorem withPort_bits : (s.withPort l r).bits = s.bits := rfl
@[simp] theorem withPort_err : (s.withPort l r).err = s.err := rfl
@[simp] theorem withPort_errcode : (s.withPort l r).errcode = s.errcode := rfl
@[simp] theorem withPort_errinfo : (s.withPort l r).errinfo = s.errinfo := rfl
@[simp] theorem withPort_countBits : (s.withPort l r).countBits = s.countBits := rfl
@[simp] theorem withPort_capacity : (s.withPort l r).capacity = s.capacity := rfl
@[simp] theorem withPort_poly (k : PReg) : (s.withPort l r).poly k = s.poly k := rfl
@[simp] theorem withPort_toBlock : (s.withPort l r).toBlock = s.toBlock := rfl

end withPort

/-- A map of the next state. -/
def onNext (f : State → State) : Result → Result
  | .next t => .next (f t)
  | .fault e => .fault e
  | .refused x => .refused x


theorem raise_withPort (e : ErrCode) (w : Word) (s : State) (l : List HostMove) (r : Option Word) :
    raise e w (s.withPort l r) = (raise e w s).withPort l r := by
  unfold raise State.withPort; split <;> rfl

theorem useTables_withPort (s : State) (l : List HostMove) (r : Option Word) :
    useTables (s.withPort l r) = (useTables s).withPort l r := by
  unfold useTables State.withPort; simp only []; split <;> rfl

/-- A command does to a block what it does to the same block in another machine: it neither reads nor writes the host's side. -/
theorem exec_withPort (i : Instr) (s : State) (l : List HostMove) (r : Option Word) :
    exec i (s.withPort l r) = onNext (·.withPort l r) (exec i s) := by
  have hu := useTables_withPort s l r
  have hr := fun e w => raise_withPort e w s l r
  cases i with
  | tinit => simp only [exec, execTinit, hu]; rfl
  | gfexp n => simp only [exec, execGfexp, hu]; rfl
  | gflog n =>
    simp only [exec, execGflog, hu, gfLog, failCommand, hr]
    by_cases hn : n = 0
    · simp only [if_pos hn]; rfl
    · simp only [if_neg hn]; rfl
  | gfmul x y => simp only [exec, execGfmul, hu]; rfl
  | pmul pd pa pb =>
    show execPmul pd pa pb (s.withPort l r) = onNext _ (execPmul pd pa pb s)
    unfold execPmul
    simp only [failCommand, hr, hu, withPort_poly]
    split; rfl
    split <;> rfl
  | genp pd n =>
    show execGenp pd n (s.withPort l r) = onNext _ (execGenp pd n s)
    unfold execGenp
    simp only [failCommand, hr, hu]
    split <;> rfl
  | rsdiv pd pg pm =>
    show execRsdiv pd pg pm (s.withPort l r) = onNext _ (execRsdiv pd pg pm s)
    unfold execRsdiv
    simp only [failCommand, hr, hu, withPort_poly]
    split; rfl
    split <;> rfl
  | cwld pd off len =>
    show execCwld pd off len (s.withPort l r) = onNext _ (execCwld pd off len s)
    unfold execCwld
    simp only [failCommand, hr, withPort_bits]
    split <;> rfl
  | pkhdr =>
    show execPkhdr (s.withPort l r) = onNext _ (execPkhdr s)
    unfold execPkhdr
    simp only [failCommand, hr, withPort_bits, withPort_str, withPort_mode, withPort_countBits]
    split; rfl
    split; rfl
    split <;> rfl
  | pknum =>
    show execPknum (s.withPort l r) = onNext _ (execPknum s)
    unfold execPknum
    simp only [failCommand, hr, withPort_bits, withPort_str]
    split; rfl
    split <;> rfl
  | pkaln =>
    show execPkaln (s.withPort l r) = onNext _ (execPkaln s)
    unfold execPkaln
    simp only [failCommand, hr, withPort_bits, withPort_str]
    split; rfl
    split <;> rfl
  | pktrm =>
    show execPktrm (s.withPort l r) = onNext _ (execPktrm s)
    unfold execPktrm
    simp only [failCommand, hr, withPort_bits, withPort_capacity]
    split <;> rfl
  | pkpad =>
    show execPkpad (s.withPort l r) = onNext _ (execPkpad s)
    unfold execPkpad
    simp only [failCommand, hr, withPort_bits, withPort_capacity]
    split <;> rfl
  | pack =>
    show execPack (s.withPort l r) = onNext _ (execPack s)
    unfold execPack
    simp only [failCommand, hr, withPort_dcw, withPort_str, withPort_capacity, withPort_countBits]
    split; rfl
    split; rfl
    split <;> rfl
  | eclr => rfl
  | pclr => rfl
  | sclr => rfl
  | msel => rfl
  | bclr => rfl

/-- A host write neither reads nor writes the host's side (R65). -/
theorem cellWrite_withPort (a : Addr) (v : Word) (s : State) (l : List HostMove) (r : Option Word) :
    cellWrite a v (s.withPort l r) = onNext (·.withPort l r) (cellWrite a v s) := by
  have hr := fun e w => raise_withPort e w s l r
  unfold cellWrite
  by_cases herr : s.err = true
  · rw [if_pos herr, if_pos (show (s.withPort l r).err = true from herr)]
    split <;> rfl
  · rw [if_neg herr, if_neg (show ¬ (s.withPort l r).err = true from herr)]
    cases cellOf a with
    | none => simp only [accessError, hr]; rfl
    | some c =>
      cases c with
      | cmd =>
        simp only [cellEffect, runWord]
        cases decode v with
        | none => simp only [hr]; rfl
        | some i => exact exec_withPort i s l r
      | ccb => rfl
      | dcw => rfl
      | spush =>
        simp only [cellEffect, pushChar, hr, withPort_str]
        split <;> rfl
      | ppush k =>
        simp only [cellEffect, pushCoeff, hr, withPort_poly]
        split <;> rfl
      | _ => simp only [cellEffect, accessError, hr]; rfl

end Sys2Proof.Machine
end

