-- ==== Sys2Proof/Tests/Slice0.lean ====
section
/-! SUPPORT. The model's own tests. Expected values are those of spec/95_test_vectors.md (the vector is named) or of a rule's
example; a theorem `witness_…` shows a state and operands that meet the hypotheses of the obligation it names. -/

set_option Elab.async false

namespace Sys2Proof.Tests
open Sys2Proof.Machine

-- Helpers

/-- A part of the next state, `none` when there is none. -/
def got {α : Type} (f : State → α) : Result → Option α
  | .next t => some (f t)
  | .fault _ => none
  | .refused _ => none

/-- The block after TINIT. -/
def ready : State := { State.reset with
  exp := (buildTables .unbuilt).exp, log := (buildTables .unbuilt).log, tinit := true }

/-- A block with `P1` and `P2` loaded. -/
def withPolys (p1 p2 : List Nat) : State :=
  { ready with polys := ⟨[], p1.map (BitVec.ofNat 8), p2.map (BitVec.ofNat 8), []⟩ }

def chars (s : String) : List Byte := s.toList.map fun c => BitVec.ofNat 8 c.toNat

def stream (s : String) : BitSeq := s.toList.map (· == '1')

/-- A block with a string, `CCB` and `DCW` (the script lines `.str` and `.cfg`). -/
def withString (s : String) (ccb : BitVec 5) (dcw : BitVec 12) : State :=
  { State.reset with str := chars s, ccb := ccb, dcw := dcw }

/-- The codewords 0 to n-1 of B. -/
def codewords (n : Nat) (t : State) : List Nat := (List.range n).map fun i => (codeword t.bits i).toNat

/-- The error items (R31 to R33). -/
def errorItems (t : State) : Bool × Nat × Nat := (t.err, t.errcode.toNat, t.errinfo.toNat)

def poly (k : PReg) (t : State) : List Nat := (t.poly k).map BitVec.toNat

/-- The block after the error E_DOM of GFLOG 0 (V-IF-11). -/
def frozen : State := { State.reset with err := true, errcode := 1, errinfo := 0x11000000 }

/-- A block whose string buffer is full (V-IF-9). -/
def fullString : State := { State.reset with str := List.replicate 8192 0x30 }

-- WellFormed smoke: the one check, CWLD's len (R85 (c))

theorem test_wellFormed_refuses_cwld_257 : (Instr.cwld .p0 0 257).wellFormed = false := by decide
theorem test_wellFormed_refuses_cwld_1023 : (Instr.cwld .p3 4095 1023).wellFormed = false := by decide
theorem test_wellFormed_accepts_cwld_256 : (Instr.cwld .p0 0 256).wellFormed = true := by decide

-- Decoding: every constructor by a word written out from R84 and its rule

/-- Format Z (R84, column "word"). -/
theorem test_decode_formatZ :
    [0x01000000, 0x02000000, 0x30000000, 0x31000000, 0x32000000, 0x33000000, 0x34000000, 0x35000000, 0x36000000,
      0x37000000, 0x38000000].map decode =
    [some .tinit, some .eclr, some .sclr, some .msel, some .bclr, some .pkhdr, some .pknum, some .pkaln, some .pktrm,
      some .pkpad, some .pack] := by decide +kernel

/-- Formats N and XY, bit by bit: GFEXP 25 (R107), GFLOG 3 (R108), GFMUL 0x53, 0xCA (R109). -/
theorem test_decode_field_bits :
    decode 0b00010000_00000000_00000000_00011001 = some (.gfexp 25) ∧
    decode 0b00010001_00000000_00000000_00000011 = some (.gflog 3) ∧
    decode 0b00010010_00000000_01010011_11001010 = some (.gfmul 0x53 0xCA) := by decide +kernel

/-- Formats P, PPP, PN, PL, bit by bit: PCLR P2 (R125), PMUL P0, P1, P2 (R126), GENP P1, 2 (V-RS-3), RSDIV P2, P0, P1 (V-EN-13),
CWLD P3, 1, 1 (V-RS-36). -/
theorem test_decode_reed_solomon_bits :
    decode 0b00100000_00000010_00000000_00000000 = some (.pclr .p2) ∧
    decode 0b00100001_00000000_00000001_00000010 = some (.pmul .p0 .p1 .p2) ∧
    decode 0b00100010_00000001_00000000_00000010 = some (.genp .p1 2) ∧
    decode 0b00100011_00000010_00000000_00000001 = some (.rsdiv .p2 .p0 .p1) ∧
    decode 0b00100100_11000000_00000100_00000001 = some (.cwld .p3 1 1) := by decide +kernel

/-- V-EN-5 to V-EN-11, V-EN-14 and program 5, line 10: the largest operands. -/
theorem test_decode_operand_ends :
    [0x100000FF, 0x1200FFFF, 0x20030000, 0x21030303, 0x220300FF, 0x24000100, 0x24FFFD00, 0x24400010, 0x23030203].map decode =
    [some (.gfexp 255), some (.gfmul 255 255), some (.pclr .p3), some (.pmul .p3 .p3 .p3), some (.genp .p3 255),
      some (.cwld .p0 0 256), some (.cwld .p3 4095 256), some (.cwld .p1 0 16), some (.rsdiv .p3 .p2 .p3)] := by decide +kernel

/-- V-EN-1 to V-EN-10 and V-EN-12: the illegal words. -/
theorem test_decode_illegal :
    [0x00000000, 0xFFFFFFFF, 0x01000001, 0x02000001, 0x10000100, 0x12010000, 0x20040000, 0x21000400, 0x22000100,
      0x24000101, 0x03000000, 0x13000000, 0x25000000, 0x39000000, 0x40000000].all (fun w => decode w == none) = true := by
  decide +kernel

-- System

/-- V-IF-13. -/
theorem test_eclr : got errorItems (exec .eclr frozen) = some (false, 0, 0) := by decide +kernel

/-- V-IF-14. -/
theorem test_eclr_idle : got id (exec .eclr ready) = some ready := by decide +kernel

-- Field Arithmetic Engine

/-- V-GF-29. -/
theorem test_tinit : got (fun t => (t.tinit, t.res, t.exp.getD 8 0, t.log.getD 255 0)) (exec .tinit State.reset) =
    some (true, 0, 29, 175) := by decide +kernel

/-- V-GF-4, V-GF-5, V-GF-6, V-GF-7. -/
theorem test_gfexp : [8, 25, 254, 255].map (fun n => got (·.res) (exec (.gfexp n) State.reset)) =
    [some 29, some 3, some 142, some 1] := by decide +kernel

/-- V-GF-8, V-GF-10, V-GF-12, V-GF-13. -/
theorem test_gflog : [1, 3, 142, 255].map (fun n => got (·.res) (exec (.gflog n) State.reset)) =
    [some 0, some 25, some 254, some 175] := by decide +kernel

/-- V-GF-15. -/
theorem test_gflog_zero : got (fun t => (errorItems t, t.tinit, t.res)) (exec (.gflog 0) State.reset) =
    some ((true, 1, 0x11000000), false, 0) := by decide +kernel

/-- V-GF-17, V-GF-20 to V-GF-22, V-GF-26. -/
theorem test_gfmul : [(7, 0), (0x53, 0xCA), (255, 255), (2, 142), (142, 142)].map (fun p => got (·.res) (exec (.gfmul p.1 p.2) ready)) =
    [some 0, some 143, some 226, some 1, some 71] := by decide +kernel

-- Reed-Solomon Encoder

/-- R125. -/
theorem test_pclr : got (fun t => (poly .p1 t, poly .p2 t)) (exec (.pclr .p2) (withPolys [1, 2] [3])) = some ([1, 2], []) := by
  decide +kernel

/-- V-RS-10. -/
theorem test_pmul : got (poly .p0) (exec (.pmul .p0 .p1 .p2) (withPolys [1, 2] [1, 3])) = some [1, 1, 6] := by decide +kernel

/-- V-RS-14, the destination is both sources. -/
theorem test_pmul_square : got (poly .p1) (exec (.pmul .p1 .p1 .p1) (withPolys [2, 3] [])) = some [4, 0, 5] := by decide +kernel

/-- V-RS-1, V-RS-3, V-RS-4. -/
theorem test_genp : [0, 2, 3].map (fun n => got (poly .p0) (exec (.genp .p0 n) ready)) =
    [some [1], some [1, 3, 2], some [1, 7, 14, 8]] := by decide +kernel

/-- V-RS-20. -/
theorem test_rsdiv : got (poly .p0) (exec (.rsdiv .p0 .p1 .p2) (withPolys [1, 3, 2] [1, 2, 3])) = some [4, 4] := by decide +kernel

/-- V-RS-26, V-RS-25. -/
theorem test_rsdiv_short : got (poly .p0) (exec (.rsdiv .p0 .p1 .p2) (withPolys [1, 3, 2] [])) = some [0, 0] ∧
    got (poly .p2) (exec (.rsdiv .p2 .p1 .p2) (withPolys [1, 3, 2] [1])) = some [3, 2] := by decide +kernel

/-- V-RS-33, V-RS-34. -/
theorem test_cwld : got (poly .p0) (exec (.cwld .p0 0 2) { ready with bits := stream "000100000000010001" }) = some [16, 4] ∧
    got errorItems (exec (.cwld .p0 0 3) { ready with bits := stream "000100000000010001" }) = some (true, 3, 0x24000003) := by
  decide +kernel

/-- V-RS-35, `len` = 0 on both sides of the bound. -/
theorem test_cwld_empty : got (poly .p0) (exec (.cwld .p0 2 0) { ready with bits := stream "000100000000010001" }) = some [] ∧
    got errorItems (exec (.cwld .p0 3 0) { ready with bits := stream "000100000000010001" }) = some (true, 3, 0x24000C00) := by
  decide +kernel

-- Mode Selector & Bit Packer

/-- R148, R204: MODE keeps the old classification. -/
theorem test_sclr : got (fun t => (t.str, t.mode)) (exec .sclr { withString "A" 0 0 with mode := .alphanumeric }) =
    some ([], .alphanumeric) := by decide +kernel

/-- V-PK-1, rows a to e, h, j, k, l. -/
theorem test_msel : ["8675309", "HELLO WORLD", "hello", "", " ", "a1", "HELLO, WORLD", "1.5", "AC-42"].map
      (fun s => got (·.mode) (exec .msel (withString s 0 0))) =
    [some .numeric, some .alphanumeric, some .byte, some .numeric, some .alphanumeric, some .byte, some .byte,
      some .alphanumeric, some .alphanumeric] := by decide +kernel

/-- V-PK-1, rows i and m: a line feed and the code 0xE9 are Byte. -/
theorem test_msel_codes : got (·.mode) (exec .msel { State.reset with str := [0x31, 0x32, 0x0A] }) = some .byte ∧
    got (·.mode) (exec .msel { State.reset with str := [0xE9] }) = some .byte := by decide +kernel

/-- R150. -/
theorem test_bclr : got (·.bits) (exec .bclr { ready with bits := [true, false] }) = some [] := by decide +kernel

/-- V-PK-25, V-PK-41. -/
theorem test_pkhdr :
    got (·.bits) (exec .pkhdr { withString "HELLO WORLD" 9 0 with mode := .alphanumeric }) = some (stream "0010000001011") ∧
    got errorItems (exec .pkhdr { withString "hello" 9 0 with mode := .byte }) = some (true, 5, 0x33000000) := by decide +kernel

/-- V-PK-3, V-PK-7, V-PK-12. -/
theorem test_pknum : ["8675309", "007", "12345"].map (fun s => got (·.bits) (exec .pknum (withString s 0 0))) =
    [some (stream "110110001110000100101001"), some (stream "0000000111"), some (stream "00011110110101101")] := by
  decide +kernel

/-- V-PK-45. -/
theorem test_pknum_char : got (fun t => (errorItems t, t.bits)) (exec .pknum (withString "12A" 0 0)) =
    some ((true, 6, 0x34000000), []) := by decide +kernel

/-- V-PK-14, V-PK-15, V-PK-17, V-PK-19, V-PK-23, V-PK-24. -/
theorem test_pkaln : ["A0", "00", "A", "::", "AC-42", "12"].map (fun s => got (·.bits) (exec .pkaln (withString s 0 0))) =
    [some (stream "00111000010"), some (stream "00000000000"), some (stream "001010"), some (stream "11111101000"),
      some (stream "0011100111011100111001000010"), some (stream "00000101111")] := by decide +kernel

/-- V-PK-46. -/
theorem test_pkaln_char : got errorItems (exec .pkaln (withString "a" 0 0)) = some (true, 6, 0x35000000) := by decide +kernel

/-- R154: four zeros, three zeros when three bits are left, none at the capacity. -/
theorem test_pktrm : [12, 13, 16].map (fun n => got (fun t => t.bits.length)
      (exec .pktrm { withString "" 0 2 with bits := List.replicate n true })) = [some 16, some 16, some 16] ∧
    got (·.bits) (exec .pktrm { withString "" 0 2 with bits := [true] }) = some [true, false, false, false, false] := by
  decide +kernel

/-- V-PK-47. -/
theorem test_pktrm_cap : got errorItems (exec .pktrm { withString "" 0 2 with bits := List.replicate 24 true }) =
    some (true, 8, 0x36000000) := by decide +kernel

/-- V-PK-27, with `DCW` = 2 and 3. -/
theorem test_pkpad : got (·.bits) (exec .pkpad (withString "" 0 2)) = some (stream "1110110000010001") ∧
    got (codewords 3) (exec .pkpad (withString "" 0 3)) = some [236, 17, 236] := by decide +kernel

/-- V-PK-47. -/
theorem test_pkpad_cap : got errorItems (exec .pkpad { withString "" 0 2 with bits := List.replicate 24 true }) =
    some (true, 8, 0x37000000) := by decide +kernel

/-- V-PK-29, V-PK-30, V-PK-33, V-PK-34, V-PK-38. -/
theorem test_pack :
    [("12", 10, 3, 3), ("123", 10, 3, 3), ("123", 10, 5, 5), ("A0", 9, 4, 4), ("", 0, 1, 1)].map
      (fun (s, c, d, n) => got (codewords n) (exec .pack (withString s c d))) =
    [some [16, 8, 96], some [16, 12, 123], some [16, 12, 123, 0, 236], some [32, 17, 194, 0], some [16]] := by decide +kernel

/-- V-PK-44 (the three errors in their order), V-PK-43. -/
theorem test_pack_errors :
    [("", 0, 0), ("1", 0, 0), ("a", 0, 0), ("123", 10, 2)].map (fun (s, c, d) => got errorItems (exec .pack (withString s c d))) =
    [some (true, 8, 0x38000000), some (true, 7, 0x38000000), some (true, 5, 0x38000000), some (true, 8, 0x38000000)] := by
  decide +kernel

-- The port

/-- V-IF-2, V-IF-4: reads of a W cell and of unmapped addresses. -/
theorem test_read_refused : [0x0000, 0x000B, 0x0018, 0x03FF, 0x0800, 0x1FFF, 0x5000, 0xFFFF].all (fun a =>
    (cellRead a State.reset).1 == 0 && errorItems (cellRead a State.reset).2 == (true, 9, a.toNat)) = true := by decide +kernel

/-- V-IF-5: writes of R and unmapped cells. -/
theorem test_write_refused : [0x0001, 0x0004, 0x0005, 0x0400, 0x2000, 0x4000, 0x000B].all (fun a =>
    got errorItems (cellWrite a 1 State.reset) == some (true, 9, a.toNat)) = true := by decide +kernel

/-- V-IF-6. -/
theorem test_write_config : got (·.ccb) (cellWrite 0x0006 0xFFFFFFFF State.reset) = some 31 ∧
    got (·.dcw) (cellWrite 0x0007 0xFFFFFFFF State.reset) = some 4095 ∧
    got (·.dcw) (cellWrite 0x0007 0x1000 State.reset) = some 0 := by decide +kernel

/-- V-IF-7, V-IF-8. -/
theorem test_push : got (·.str) (cellWrite 0x000A 0x141 State.reset) = some [0x41] ∧
    got (poly .p2) (cellWrite 0x0016 0x1FF { State.reset with polys := ⟨[], [], [7], []⟩ }) = some [7, 255] := by decide +kernel

/-- V-IF-11, V-IF-12: the freeze. -/
theorem test_freeze : got id (cellWrite 0 0x12000203 frozen) = some frozen ∧ got id (cellWrite 6 9 frozen) = some frozen ∧
    got id (cellWrite 0 0x02000001 frozen) = some frozen ∧ cellRead 0xFFFF frozen = (0, frozen) := by decide +kernel

/-- R51, R57, R59: a register's and the bit buffer's cells by address (V-RS-33, V-IF-8). -/
theorem test_read_cells : readable 0x0600 (withPolys [] [255, 7]) = some 255 ∧ readable 0x0601 (withPolys [] [255, 7]) = some 7 ∧
    readable 0x0602 (withPolys [] [255, 7]) = some 0 ∧ readable 0x0012 (withPolys [] [255, 7]) = some 2 ∧
    readable 0x4002 { ready with bits := stream "000100000000010001" } = some 64 ∧ readable 0x0001 ready = some 2 := by
  decide +kernel

/-- One step: a scheduled command word runs (program 1, line 2), from reset. -/
theorem test_step_runs_a_word : got (·.res) (step (State.reset.withFetchWord 32 0x120053CA)) = some 143 := by decide +kernel

/-- V-EN-1: an illegal word through a step. -/
theorem test_step_illegal : got errorItems (step (State.reset.withFetchWord 32 0xFFFFFFFF)) = some (true, 2, 0xFFFFFFFF) := by
  decide +kernel

/-- V-IF-15: reset with an error pending. -/
theorem test_step_reset : got id (step { frozen with tinit := true, str := [1], script := [.reset] }) = some State.reset := by
  decide +kernel

/-- The loop of R100 leaves the tables of R110. -/
theorem test_construction_is_R110 : constructTables .unbuilt = buildTables .unbuilt :=
  constructTables_eq _ List.length_replicate List.length_replicate

/-- W1 and the end of the tables as R110 prints them. -/
theorem test_tables : builtExp.getD 254 0 = 142 ∧ builtExp.getD 255 0 = 1 ∧ (buildTables .unbuilt).log.getD 142 0 = 254 := by
  decide +kernel

-- Witnesses: the hypotheses of each obligation, clause by clause, at the ends of their ranges

theorem ready_tablesReady : ready.TablesReady := fun _ => buildTables_built _

theorem reset_tablesReady : State.reset.TablesReady := fun h => nomatch h

/-- The longest CWLD, and every other constructor without a condition. -/
theorem witness_DecodeInvertsEncode : (Instr.cwld .p3 4095 256).wellFormed = true ∧ (Instr.gfmul 255 255).wellFormed = true := by
  decide

/-- A legal word; a word that matches CWLD's row at len 256; one at len 257, which the second clause leaves out. -/
theorem witness_DecodeFollowsOpcodeMap :
    decode 0x23020001 = some (.rsdiv .p2 .p0 .p1) ∧
    (0x24000100 : Word) &&& (opcodeRow (.cwld .p0 0 0)).mask = (opcodeRow (.cwld .p0 0 0)).pattern ∧
    (0x24000100 : Word).toNat % 1024 = 256 ∧ (0x24000101 : Word).toNat % 1024 = 257 ∧
    (0x38000000 : Word) &&& (opcodeRow .pack).mask = (opcodeRow .pack).pattern := by decide

/-- A legal and an illegal word as the next move of a block without error. -/
theorem witness_StepRunsTheWrittenCommand :
    State.reset.err = false ∧ decode 0x31000000 = some .msel ∧ decode 0 = none ∧
    ({ State.reset with script := [.write 0 0x31000000] } : State).script = .write 0 0x31000000 :: [] ∧
    ({ State.reset with script := [.write 0 0, .reset] } : State).script = .write 0 0 :: [.reset] := by decide

theorem witness_StepPerformsTheNextMove :
    ({ State.reset with script := [.read 0xFFFF] } : State).script = .read 0xFFFF :: [] ∧
    ({ State.reset with script := [.write 6 9, .read 6] } : State).script = .write 6 9 :: [.read 6] := by decide

/-- A frozen block; a readable cell, a W cell and an unmapped address. -/
theorem witness_FrozenBlockOnlyAcknowledges :
    frozen.err = true ∧ ¬ ((0 : Addr) = 0 ∧ (0x02000001 : Word) = 0x02000000) ∧ ¬ ((6 : Addr) = 0 ∧ (9 : Word) = 0x02000000) ∧
    cellOf 0x4FFF = some (.cwdat 4095) ∧ cellContent frozen (.cwdat 4095) = some 0 ∧
    cellOf 0 = some .cmd ∧ Cell.cmd.writeOnly = true ∧ cellOf 0x5000 = none := by decide +kernel

/-- A write and a read that raise. -/
theorem witness_ErrorChangesNothingElse :
    State.reset.err = false ∧ frozen.err = true ∧ cellWrite 0 0x11000000 State.reset = .next frozen ∧
    (cellRead 0x0018 State.reset).2.err = true := by
  refine ⟨rfl, rfl, rfl, ?_⟩
  decide +kernel

/-- A command's error, an access error of a write and of a read. -/
theorem witness_ErrorDetailIsWordOrAddress :
    State.reset.err = false ∧ frozen.err = true ∧ cellWrite 0 0x11000000 State.reset = .next frozen ∧
    got errorItems (cellWrite 1 0 State.reset) = some (true, 9, 1) ∧
    errorItems (cellRead 0xFFFF State.reset).2 = (true, 9, 0xFFFF) := by
  refine ⟨rfl, rfl, rfl, ?_⟩
  decide +kernel

/-- Each of the causes: a command, an illegal word, a forbidden write, a full buffer, a forbidden read. -/
theorem witness_OnlyListedOperationsRaise :
    cellWrite 0 0x11000000 State.reset = .next frozen ∧
    got errorItems (cellWrite 0 0 State.reset) = some (true, 2, 0) ∧
    got errorItems (cellWrite 0x4000 1 State.reset) = some (true, 9, 0x4000) ∧
    got (·.err) (cellWrite 0x000A 0x30 fullString) = some true ∧
    errorItems (cellRead 0x0016 State.reset).2 = (true, 9, 0x0016) := by
  refine ⟨rfl, ?_, ?_, ?_, ?_⟩
  · decide +kernel
  · decide +kernel
  · have h : fullString.str.length = Config.smax := List.length_replicate
    show some (pushChar 0x000A 0x30 fullString).err = some true
    simp only [pushChar, if_pos h, raise_err]
  · decide +kernel

/-- Both ends of the ranges of the map. -/
theorem witness_CellMapIsExact : cellOf 0x07FF = some (.pdat .p3 255) ∧ cellOf 0x0400 = some (.pdat .p0 0) ∧
    cellOf 0x3FFF = some (.sdat 8191) ∧ cellOf 0x4000 = some (.cwdat 0) ∧ cellOf 0x0013 = some (.plen .p3) ∧
    cellOf 0x0014 = some (.ppush .p0) ∧ cellOf 0x000B = none ∧ cellOf 0xFFFF = none := by decide +kernel

theorem witness_ReadReturnsContentOrRaises :
    cellOf 1 = some .status ∧ cellContent ready .status = some 2 ∧ cellOf 0x0017 = some (.ppush .p3) ∧
    (Cell.ppush .p3).writeOnly = true ∧ cellOf 0x0800 = none ∧ ready.err = false ∧ frozen.err = true := by decide +kernel

/-- A block with content in a register, the string and the bit buffer. -/
theorem witness_CellsHoldTheState :
    ({ withPolys [1, 2] [3] with str := [0x41], bits := [true, false] } : State).WellSized where
  polys := fun k => by cases k <;> decide
  str := by decide
  bits := by decide
  exp := buildTables_length_exp .unbuilt
  log := buildTables_length_log .unbuilt

/-- Registers of 255 and 256 coefficients, strings of 8191 and 8192 characters. -/
theorem witness_PushAppendsOrRaisesFull :
    State.reset.err = false ∧ ((List.replicate 256 1 : Poly).length = 256) ∧ ¬ ((List.replicate 255 1 : Poly).length = 256) ∧
    ((List.replicate 8192 0x30 : List Byte).length = 8192) ∧ ¬ ((List.replicate 8191 0x30 : List Byte).length = 8192) :=
  ⟨rfl, List.length_replicate, by rw [List.length_replicate]; decide, List.length_replicate,
    by rw [List.length_replicate]; decide⟩

theorem witness_ConfigurationWritesStoreLowBits : State.reset.err = false := rfl

/-- An R cell, an unmapped address. -/
theorem witness_ForbiddenWritesRaiseAccess :
    State.reset.err = false ∧ cellOf 2 = some .errcode ∧ Cell.errcode.writable = false ∧ cellOf 0x5000 = none := by
  decide +kernel

theorem witness_ResetMoveResetsTheBlock : ({ frozen with script := [.reset, .read 1] } : State).script = .reset :: [.read 1] := rfl

/-- A block with built tables, loaded registers, a string and an illegal word to come, and the step it takes. -/
theorem witness_StepKeepsTheInvariant :
    ({ withPolys [1, 2] [3] with str := [0x41], mode := .alphanumeric, script := [.write 0 0] } : State).Inv ∧
    (got (·.err) (step { withPolys [1, 2] [3] with str := [0x41], mode := .alphanumeric, script := [.write 0 0] })) = some true :=
  ⟨{ sized := ⟨fun k => by cases k <;> decide, by decide, by decide, buildTables_length_exp .unbuilt, buildTables_length_log .unbuilt⟩
     tables := fun _ => buildTables_built _
     error := ⟨fun _ => ⟨rfl, rfl⟩, fun h => nomatch h⟩
     mode := by decide },
   by decide +kernel⟩

/-- A state that breaks the invariant: an error code out of range. -/
theorem test_invariant_refuses : ¬ ({ frozen with errcode := 11 } : State).Inv := fun h => by
  have := (h.error.pending rfl).2
  exact absurd this (by decide)

theorem witness_OnlyResetClearsTinit :
    ready.tinit = true ∧ step ready = .next ready ∧ ∀ rest, ready.script ≠ .reset :: rest :=
  ⟨rfl, rfl, fun _ h => nomatch h⟩

theorem witness_NothingStopsTheBlock : ready.script = [] := rfl

/-- A command on a block with content: PCLR P2 keeps P1. -/
theorem witness_CommandsChangeOnlyTheirDestination :
    exec (.pclr .p2) (withPolys [1, 2] [3]) = .next (withPolys [1, 2] []) ∧ Instr.pclr .p2 ≠ .pclr .p1 ∧
    Instr.pclr .p2 ≠ .sclr ∧ frozen.err = true ∧ Instr.pclr .p2 ≠ .eclr ∧ buildsTables (.pclr .p2) = false ∧
    (withPolys [1, 2] [3]).err = false ∧ (withPolys [1, 2] []).err = false := by
  refine ⟨rfl, ?_⟩
  decide

/-- GFEXP from unbuilt and from built tables (V-GF-30 is of GFMUL). -/
theorem witness_ResultsDoNotDependOnTinit :
    exec .msel State.reset = .next State.reset ∧ exec .msel (useTables State.reset) = .next (useTables State.reset) := ⟨rfl, rfl⟩

theorem witness_TinitBuildsTheTablesOnce :
    ready.tinit = true ∧ State.reset.tinit = false ∧ State.reset.exp.length = 256 ∧ State.reset.log.length = 256 :=
  ⟨rfl, rfl, List.length_replicate, List.length_replicate⟩

theorem witness_ConstructionLeavesPowersAndLogarithms :
    Tables.unbuilt.exp.length = 256 ∧ Tables.unbuilt.log.length = 256 := ⟨List.length_replicate, List.length_replicate⟩

/-- Both values of TINIT. -/
theorem witness_GfexpWritesThePower : ready.TablesReady ∧ State.reset.TablesReady := ⟨ready_tablesReady, reset_tablesReady⟩

theorem witness_GflogWritesTheLogarithm : ready.TablesReady ∧ (255 : Byte) ≠ 0 ∧ State.reset.err = false :=
  ⟨ready_tablesReady, by decide, rfl⟩

theorem witness_GfmulIsTheFieldProduct : ready.TablesReady ∧ State.reset.TablesReady := ⟨ready_tablesReady, reset_tablesReady⟩

theorem witness_FieldFunctionsObeyTheirLaws : (buildTables .unbuilt).Built ∧ (255 : Byte) ≠ 0 ∧ (254 : Byte) ≠ 255 :=
  ⟨buildTables_built _, by decide, by decide⟩

theorem witness_ExpOfLogIsTheIdentity : ready.TablesReady ∧ (1 : Byte) ≠ 0 := ⟨ready_tablesReady, by decide⟩

/-- 128 and 129 coefficients make 256, the longest product. -/
theorem witness_PmulIsTheConvolution :
    (withPolys (List.replicate 128 1) (List.replicate 129 1)).TablesReady ∧
    (withPolys (List.replicate 128 1) (List.replicate 129 1)).poly .p1 ≠ [] ∧
    (withPolys (List.replicate 128 1) (List.replicate 129 1)).poly .p2 ≠ [] ∧
    ((withPolys (List.replicate 128 1) (List.replicate 129 1)).poly .p1).length +
      ((withPolys (List.replicate 128 1) (List.replicate 129 1)).poly .p2).length - 1 ≤ 256 :=
  ⟨fun _ => buildTables_built _, by decide +kernel, by decide +kernel, by decide +kernel⟩

/-- An empty source; 129 and 129 coefficients make 257 (V-RS-18). -/
theorem witness_PmulRefusesEmptyAndOverlong :
    (withPolys [1, 2] []).err = false ∧ (withPolys [1, 2] []).poly .p2 = [] ∧
    (withPolys (List.replicate 129 1) []).poly .p1 ≠ [] ∧
    256 < ((withPolys (List.replicate 129 1) []).poly .p1).length + ((withPolys (List.replicate 129 1) []).poly .p1).length - 1 := by
  decide +kernel

/-- V-RS-15. -/
theorem witness_PmulByOneIsTheIdentity :
    (withPolys [1, 127, 122] [1]).TablesReady ∧ (withPolys [1, 127, 122] [1]).poly .p1 ≠ [] ∧
    ((withPolys [1, 127, 122] [1]).poly .p1).length ≤ 256 ∧ (withPolys [1, 127, 122] [1]).poly .p2 = [1] :=
  ⟨fun _ => buildTables_built _, by decide +kernel, by decide +kernel, by decide +kernel⟩

theorem witness_GenpIsTheProductOfFactors : ready.TablesReady := ready_tablesReady

theorem witness_GeneratorIsMonicWithItsRoots : ready.TablesReady ∧ 254 < (255 : Byte).toNat := ⟨ready_tablesReady, by decide⟩

/-- A monic generator with a message and with none. -/
theorem witness_RsdivIsTheRemainder :
    (withPolys [1, 3, 2] [1, 2, 3]).TablesReady ∧ ((withPolys [1, 3, 2] [1, 2, 3]).poly .p1).head? = some 1 ∧
    (withPolys [1, 3, 2] [1, 2, 3]).poly .p2 ≠ [] ∧ (withPolys [1, 3, 2] []).poly .p2 = [] :=
  ⟨fun _ => buildTables_built _, by decide +kernel, by decide +kernel, by decide +kernel⟩

/-- V-RS-29: the messages. -/
theorem witness_RsdivIsLinearInTheMessage :
    (withPolys [1, 7, 14, 8] []).TablesReady ∧ ((withPolys [1, 7, 14, 8] []).poly .p1).head? = some 1 ∧ PReg.p1 ≠ .p2 ∧
    ([1, 2, 3, 4] : Poly).length = ([9, 8, 7, 6] : Poly).length ∧
    List.zipWith (· ^^^ ·) ([1, 2, 3, 4] : Poly) [9, 8, 7, 6] = [8, 10, 4, 2] :=
  ⟨fun _ => buildTables_built _, by decide +kernel, by decide, by decide, by decide⟩

/-- V-RS-30, V-RS-31. -/
theorem witness_RsdivRefusesNonMonicGenerator :
    (withPolys [2, 3] [1]).err = false ∧ ((withPolys [2, 3] [1]).poly .p1).head? ≠ some 1 ∧
    ((withPolys [] [1]).poly .p1).head? ≠ some 1 := by decide +kernel

/-- The last root of ten, with different registers; with pg = pm the premises are TablesReady alone. -/
theorem witness_EncodedBlockHasTheGeneratorsRoots : ready.TablesReady ∧ PReg.p0 ≠ .p1 ∧ 9 < (10 : Byte).toNat :=
  ⟨ready_tablesReady, by decide, by decide⟩

/-- Sixteen bits hold two codewords and not three. -/
theorem witness_CwldCopiesWholeCodewords :
    8 * ((0 : BitVec 12).toNat + (2 : BitVec 10).toNat) ≤ ({ ready with bits := List.replicate 16 true } : State).bits.length ∧
    ({ ready with bits := List.replicate 16 true } : State).bits.length < 8 * ((0 : BitVec 12).toNat + (3 : BitVec 10).toNat) ∧
    ready.err = false := by decide +kernel

/-- Eleven characters in 9 bits (V-PK-25); 15 characters fit 4 bits. -/
theorem witness_PkhdrAppendsIndicatorAndCount :
    ({ withString "HELLO WORLD" 9 0 with mode := .alphanumeric } : State).mode = .alphanumeric ∧
    (withString "HELLO WORLD" 9 0).str.length < 2 ^ (withString "HELLO WORLD" 9 0).ccb.toNat ∧
    (withString "HELLO WORLD" 9 0).bits.length + 4 + (withString "HELLO WORLD" 9 0).ccb.toNat ≤ 32768 ∧
    (withString "000000000000000" 4 0).mode = .numeric ∧
    (withString "000000000000000" 4 0).str.length < 2 ^ (withString "000000000000000" 4 0).ccb.toNat := by decide +kernel

/-- Byte mode; 16 characters do not fit 4 bits; a full bit buffer. -/
theorem witness_PkhdrRefusalsInOrder :
    State.reset.err = false ∧ ({ State.reset with mode := .byte } : State).mode = .byte ∧
    (withString "0000000000000000" 4 0).mode = .numeric ∧
    2 ^ (withString "0000000000000000" 4 0).ccb.toNat ≤ (withString "0000000000000000" 4 0).str.length ∧
    (withString "" 31 0).str.length < 2 ^ (withString "" 31 0).ccb.toNat ∧
    32768 < (List.replicate 32760 false).length + 4 + (withString "" 31 0).ccb.toNat := by
  refine ⟨rfl, rfl, rfl, ?_, ?_, ?_⟩
  · decide +kernel
  · decide +kernel
  · rw [List.length_replicate]; decide

/-- Seven digits end on a group of one, five on a group of two. -/
theorem witness_PknumAppendsDecimalGroups :
    (∀ c ∈ (withString "8675309" 0 0).str, c ∈ digits) ∧ (withString "8675309" 0 0).str.length % 3 = 1 ∧
    (∀ c ∈ (withString "12345" 0 0).str, c ∈ digits) ∧ (withString "12345" 0 0).str.length % 3 = 2 ∧
    (withString "8675309" 0 0).bits.length + numericLength (withString "8675309" 0 0).str.length ≤ 32768 := by decide +kernel

theorem witness_PkalnAppendsPairs :
    (∀ c ∈ (withString "HELLO WORLD" 0 0).str, c ∈ alphabet) ∧ (withString "HELLO WORLD" 0 0).str.length % 2 = 1 ∧
    (withString "HELLO WORLD" 0 0).bits.length + alnumLength (withString "HELLO WORLD" 0 0).str.length ≤ 32768 := by
  decide +kernel

/-- A character outside each alphabet; a bit buffer with 3 bits left for a digit and 5 for a character. -/
theorem witness_PayloadPackersRefuse :
    State.reset.err = false ∧ (¬ ∀ c ∈ (withString "12A" 0 0).str, c ∈ digits) ∧
    (¬ ∀ c ∈ (withString "a" 0 0).str, c ∈ alphabet) ∧ (∀ c ∈ (withString "9" 0 0).str, c ∈ digits ∧ c ∈ alphabet) ∧
    32768 < (List.replicate 32765 false).length + numericLength (withString "9" 0 0).str.length ∧
    32768 < (List.replicate 32763 false).length + alnumLength (withString "9" 0 0).str.length := by
  refine ⟨rfl, ?_, ?_, ?_, ?_, ?_⟩
  · decide +kernel
  · decide +kernel
  · decide +kernel
  · rw [List.length_replicate]; decide +kernel
  · rw [List.length_replicate]; decide +kernel

/-- Room for 4 zeros, for 3, for none, and a stream over the capacity by one bit. -/
theorem witness_PktrmAppendsBoundedZeros :
    12 + 4 ≤ 8 * (withString "" 0 2).dcw.toNat ∧ 8 * (withString "" 0 2).dcw.toNat < 13 + 4 ∧
    (List.replicate 16 true).length ≤ 8 * (withString "" 0 2).dcw.toNat ∧
    8 * (withString "" 0 2).dcw.toNat < (List.replicate 17 true).length ∧ (withString "" 0 2).err = false := by decide +kernel

/-- A stream of 5 bits (three boundary zeros, then pad bytes), and one over the capacity. -/
theorem witness_PkpadFillsToCapacity :
    ({ withString "" 0 3 with bits := List.replicate 5 true } : State).bits.length ≤ 8 * (withString "" 0 3).dcw.toNat ∧
    (7 < 8 * ((5 + 7) / 8) ∧ 5 ≤ 7) ∧ (5 + 7) / 8 + 1 < (withString "" 0 3).dcw.toNat ∧
    8 * (withString "" 0 2).dcw.toNat < (List.replicate 17 true).length ∧ (withString "" 0 2).err = false := by decide +kernel

/-- V-PK-30: a stream of exactly the capacity. -/
theorem witness_PackWritesTheWholeStream :
    (∀ c ∈ (withString "123" 10 3).str, c ∈ alphabet) ∧
    (withString "123" 10 3).str.length < 2 ^ (withString "123" 10 3).ccb.toNat ∧
    4 + (withString "123" 10 3).ccb.toNat + (payload (classify (withString "123" 10 3).str) (withString "123" 10 3).str).length =
      8 * (withString "123" 10 3).dcw.toNat := by decide +kernel

/-- V-PK-40, V-PK-42, V-PK-43. -/
theorem witness_PackRefusalsInOrder :
    State.reset.err = false ∧ (¬ ∀ c ∈ (withString "hello" 9 16).str, c ∈ alphabet) ∧
    (∀ c ∈ (withString "1234" 2 16).str, c ∈ alphabet) ∧
    2 ^ (withString "1234" 2 16).ccb.toNat ≤ (withString "1234" 2 16).str.length ∧
    (withString "123" 10 2).str.length < 2 ^ (withString "123" 10 2).ccb.toNat ∧
    8 * (withString "123" 10 2).dcw.toNat <
      4 + (withString "123" 10 2).ccb.toNat + (payload (classify (withString "123" 10 2).str) (withString "123" 10 2).str).length := by
  decide +kernel

/-- V-PK-39 on the input of V-PK-34: the step commands end without error, in the state PACK leaves. -/
theorem witness_PackEqualsTheStepCommands :
    got (·.err) (packBySteps (withString "A0" 9 4)) = some false ∧
    got (codewords 4) (packBySteps (withString "A0" 9 4)) = some [32, 17, 194, 0] ∧ (withString "A0" 9 4).err = false := by
  decide +kernel

theorem witness_RaiseKeepsTheFirstError : frozen.err = true ∧ State.reset.err = false := ⟨rfl, rfl⟩

/-- A block without error whose error items are 0. -/
theorem witness_EclrClearsTheErrorItems : ready.ErrorConsistent ∧ ready.err = false :=
  ⟨⟨fun _ => ⟨rfl, rfl⟩, fun h => nomatch h⟩, rfl⟩

/-- Lines as a block's coming moves; 256 coefficients and 8192 codes are the longest. -/
theorem witness_ScriptLinesLoadTheBlock :
    State.reset.err = false ∧
    ({ State.reset with script := (ScriptLine.loadPoly .p1 [1, 2]).moves ++ [.read 1] } : State).script =
      (ScriptLine.loadPoly .p1 [1, 2]).moves ++ [.read 1] ∧
    (List.replicate 256 1 : List Byte).length ≤ 256 ∧ (List.replicate 8192 0x30 : List Byte).length ≤ 8192 :=
  ⟨rfl, rfl, by rw [List.length_replicate], by rw [List.length_replicate]⟩

/-- R89's expansion of `.poly`, program 5 line 4, and program 2 line 2. -/
theorem test_script_moves :
    (ScriptLine.loadPoly .p1 [1, 2]).moves = [.write 0 0x20010000, .write 0x0015 1, .write 0x0015 2] ∧
    (ScriptLine.config 9 16).moves = [.write 0x0006 9, .write 0x0007 16] ∧
    (ScriptLine.loadStr (chars "HE")).moves = [.write 0 0x30000000, .write 0x000A 0x48, .write 0x000A 0x45] ∧
    (ScriptLine.rsenc .p0 .p1 7).moves = [.write 0 0x22000007, .write 0 0x23000001] := by decide +kernel

/-- V-RS-32 as RSENC with `n` = 2. -/
theorem witness_RsencComputesCorrectionCodewords :
    ({ withPolys [1, 2, 3] [] with script := (ScriptLine.rsenc .p0 .p1 2).moves } : State).TablesReady ∧
    (withPolys [1, 2, 3] []).err = false ∧ PReg.p0 ≠ .p1 ∧
    got (poly .p0) (core.run 2 ({ withPolys [1, 2, 3] [] with script := (ScriptLine.rsenc .p0 .p1 2).moves } : State)) =
      some [4, 4] :=
  ⟨fun _ => buildTables_built _, rfl, by decide, by decide +kernel⟩

/-- Two machines around one block, with different moves to come and different replies. -/
theorem witness_StepIsTheBlocksAccess :
    ({ ready with script := [.read 1] } : State).script = .read 1 :: [] ∧
    ({ ready with script := [.read 1, .reset], reply := some 7 } : State).script = .read 1 :: [.reset] ∧
    Block.access (.read 1) ready.toBlock = .next (ready.toBlock, some 2) := ⟨rfl, rfl, rfl⟩

/-- R182: E_DOM is GFLOG's with `n` = 0 only. -/
theorem test_mayRaise_gflog : mayRaise (.gflog 0) = [1] ∧ mayRaise (.gflog 1) = [] := by decide

end Sys2Proof.Tests
end

section
/-! PROOFS. The invariant of spec/10_state.md R38 and R23: one rule per state operation, then commands, writes and steps by the
lists of what each can do. -/

namespace Sys2Proof.Machine

-- The decoder's one check on an operand

/-- What the decoder accepts is a command: CWLD's `len` is at most 256 (R83 step 3). -/
theorem decode_wellFormed {w : Word} {i : Instr} (h : decode w = some i) : i.wellFormed = true := by
  unfold decode at h
  split at h <;>
    simp only [formatZ, formatN, formatXY, formatP, formatPPP, formatPN, formatPL, Option.ite_none_right_eq_some,
      Option.some.injEq, reduceCtorEq] at h <;>
    obtain ⟨hc, rfl⟩ := h
  -- the row of CWLD, the only one whose format checks an operand
  case h_10 => exact decide_eq_true hc
  all_goals rfl

-- Facts about single items

/-- The error codes are the numbers 1 to 10 (R182). -/
theorem ErrCode.code_range (e : ErrCode) : 1 ≤ e.code.toNat ∧ e.code.toNat ≤ 10 := by cases e <;> decide

/-- No string is classified as Kanji (R141). -/
theorem classify_ne_kanji (s : List Byte) : classify s ≠ .kanji := by
  unfold classify
  split
  · decide
  · split <;> decide

/-- The stream capacity of every `DCW` fits the bit buffer (R29, R30). -/
theorem State.capacity_le (s : State) : s.capacity ≤ Config.bmax := by
  have := s.dcw.isLt
  simp only [State.capacity, Config.bmax]
  omega

-- Each operation on the state keeps the invariant

section operations
variable {s : State} (h : s.Inv)
include h

theorem State.Inv.withPort (l : List HostMove) (r : Option Word) : (s.withPort l r).Inv :=
  { sized := { h.sized with }, tables := h.tables, error := { h.error with }, mode := h.mode }

theorem State.Inv.setRes (r : Byte) : State.Inv { s with res := r } :=
  { sized := { h.sized with }, tables := h.tables, error := { h.error with }, mode := h.mode }

theorem State.Inv.setCcb (c : BitVec 5) : State.Inv { s with ccb := c } :=
  { sized := { h.sized with }, tables := h.tables, error := { h.error with }, mode := h.mode }

theorem State.Inv.setDcw (d : BitVec 12) : State.Inv { s with dcw := d } :=
  { sized := { h.sized with }, tables := h.tables, error := { h.error with }, mode := h.mode }

theorem State.Inv.setStr {c : List Byte} (hc : c.length ≤ Config.smax) : State.Inv { s with str := c } :=
  { sized := { h.sized with str := hc }, tables := h.tables, error := { h.error with }, mode := h.mode }

theorem State.Inv.setMode {m : Mode} (hm : m ≠ .kanji) : State.Inv { s with mode := m } :=
  { sized := { h.sized with }, tables := h.tables, error := { h.error with }, mode := hm }

theorem State.Inv.setBits {b : BitSeq} (hb : b.length ≤ Config.bmax) : State.Inv { s with bits := b } :=
  { sized := { h.sized with bits := hb }, tables := h.tables, error := { h.error with }, mode := h.mode }

theorem State.Inv.setPoly (k : PReg) {p : Poly} (hp : p.length ≤ Config.pmax) : (s.setPoly k p).Inv := by
  refine { sized := { h.sized with polys := fun j => ?_ }, tables := h.tables, error := { h.error with }, mode := h.mode }
  rw [State.poly_setPoly]
  split
  · exact hp
  · exact h.sized.polys j

theorem State.Inv.useTables : (useTables s).Inv := by
  cases ht : s.tinit with
  | true => rwa [useTables_of_tinit ht]
  | false =>
    have hsized : (Machine.useTables s).WellSized :=
      { polys := by simpa using h.sized.polys
        str := by simpa using h.sized.str
        bits := by simpa using h.sized.bits
        exp := by simp [ht, buildTables_length_exp]
        log := by simp [ht, buildTables_length_log] }
    exact { sized := hsized, tables := fun _ => useTables_built h.tables,
            error := ⟨by simpa using h.error.none_pending, by simpa using h.error.pending⟩, mode := by simpa using h.mode }

theorem State.Inv.raise (e : ErrCode) (w : Word) : (raise e w s).Inv := by
  cases herr : s.err with
  | true => rwa [raise_of_err herr]
  | false =>
    rw [raise_of_no_err herr]
    exact { sized := { h.sized with }, tables := h.tables, error := ⟨nofun, fun _ => e.code_range⟩, mode := h.mode }

theorem State.Inv.clearError : (clearError s).Inv :=
  { sized := { h.sized with }, tables := h.tables, error := ⟨fun _ => ⟨rfl, rfl⟩, nofun⟩, mode := h.mode }

end operations

/-- The reset state meets the invariant: its sequences are empty, its tables unbuilt and no error is pending (R37). -/
theorem State.reset_inv : State.reset.Inv where
  sized := { polys := fun k => by cases k <;> exact Nat.zero_le _, str := Nat.zero_le _, bits := Nat.zero_le _,
             exp := List.length_replicate, log := List.length_replicate }
  tables := nofun
  error := ⟨fun _ => ⟨rfl, rfl⟩, nofun⟩
  mode := nofun

-- What commands, writes and steps do keeps the invariant

/-- A well-formed command keeps the invariant. CWLD is why the command has to be well formed: a `len` of more than 256 would
fill a register beyond its capacity. -/
theorem Effect.inv {s t : State} {i : Instr} (h : s.Inv) (hi : i.wellFormed = true) (he : Effect s i t) : t.Inv := by
  cases he with
  | tinit => exact h.useTables
  | eclr => exact h.clearError
  | gfexp | gflog | gfmul => exact h.useTables.setRes _
  | pclr pd => exact h.setPoly pd (Nat.zero_le _)
  | pmul pd _ _ _ hr | genp pd _ _ hr => exact h.useTables.setPoly pd hr
  | rsdiv pd pg _ _ hr => exact h.useTables.setPoly pd (hr.le.trans (h.sized.polys pg))
  | cwld pd _ _ _ hr => exact h.setPoly pd (hr.trans_le (of_decide_eq_true hi))
  | sclr => exact h.setStr (Nat.zero_le _)
  | msel => exact h.setMode (classify_ne_kanji _)
  | bclr => exact h.setBits (Nat.zero_le _)
  | pkhdr _ hb | pknum _ hb | pkaln _ hb => exact h.setBits hb
  | pktrm _ hb => exact h.setBits (hb.trans s.capacity_le)
  | pkpad _ hb => exact h.setBits (hb.trans_le s.capacity_le)
  | pack _ hb => exact (h.setMode (classify_ne_kanji _)).setBits (hb.trans_le s.capacity_le)

theorem WriteEffect.inv {a : Addr} {v : Word} {s t : State} (h : s.Inv) (hw : WriteEffect a v s t) : t.Inv := by
  cases hw with
  | acknowledged => exact h.clearError
  | ignored => exact h
  | refused | illegal | failed | strFull | polyFull => exact h.raise _ _
  | command _ _ _ _ hd ht => exact ht.inv h (decode_wellFormed hd)
  | ccb => exact h.setCcb _
  | dcw => exact h.setDcw _
  | strPush _ _ hf =>
    refine h.setStr ?_
    rw [List.length_append]
    exact Nat.lt_of_le_of_ne h.sized.str hf
  | polyPush k _ _ hf =>
    refine h.setPoly k ?_
    rw [List.length_append]
    exact Nat.lt_of_le_of_ne (h.sized.polys k) hf

theorem StepEffect.inv {s t : State} (h : s.Inv) (hs : StepEffect s t) : t.Inv := by
  cases hs with
  | idle => exact h
  | readOk _ v rest => exact h.withPort rest (some v)
  | readRefused _ rest => exact ((h.withPort rest s.reply).raise _ _).withPort _ (some 0)
  | write _ _ rest _ _ hw => exact hw.inv (h.withPort rest none)
  | reset rest => exact State.reset_inv.withPort rest none

/-- Settles O18. -/
theorem resetStateIsSafe : Obligations.ResetStateIsSafe := State.reset_inv

/-- Settles O19, by the list of what a step can do and one rule per operation on the state. -/
theorem stepKeepsTheInvariant : Obligations.StepKeepsTheInvariant :=
  fun _ _ h hstep => (StepEffect.of_step hstep).inv h

end Sys2Proof.Machine
end

section
/-! PROOFS. The frame of every command (spec/10_state.md R20 to R33, spec/41_field_engine.md R105), and that only reset clears
`TINIT` (R23). -/

namespace Sys2Proof.Machine

/-- What the state is after a command: one of the effects listed for it, or an error listed for it. -/
theorem effect_or_raise_of_exec {i : Instr} {s t : State} (h : exec i s = .next t) :
    Effect s i t ∨ ∃ e, t = raise e (encode i) s ∧ Raises i e := by
  rcases exec_cases i s with ⟨u, hu, he⟩ | ⟨e, hu, he⟩ <;> rw [h] at hu <;> cases hu
  · exact .inl he
  · exact .inr ⟨e, rfl, he⟩

theorem State.poly_setPoly_other (s : State) {k j : PReg} (v : Poly) (h : j ≠ k) : (s.setPoly k v).poly j = s.poly j :=
  PolyRegs.get_set_other s.polys v h

-- What a successful command leaves unchanged, item by item

section frame
variable {i : Instr} {s t : State} (h : Effect s i t)
include h

/-- No command writes the configuration registers or the host's side of the port (R28, R29, R34). -/
theorem Effect.config_port_eq : t.ccb = s.ccb ∧ t.dcw = s.dcw ∧ t.script = s.script ∧ t.reply = s.reply := by
  cases h <;> simp

theorem Effect.str_eq (hi : i ≠ .sclr) : t.str = s.str := by
  cases h with
  | sclr => contradiction
  | _ => simp

theorem Effect.mode_eq (hm : i ≠ .msel) (hp : i ≠ .pack) : t.mode = s.mode := by
  cases h with
  | msel | pack => contradiction
  | _ => simp

theorem Effect.res_eq (he : ∀ n, i ≠ .gfexp n) (hl : ∀ n, i ≠ .gflog n) (hm : ∀ x y, i ≠ .gfmul x y) :
    t.res = s.res := by
  cases h with
  | gfexp => exact absurd rfl (he _)
  | gflog => exact absurd rfl (hl _)
  | gfmul => exact absurd rfl (hm _ _)
  | _ => simp

/-- The register a polynomial command names as its destination (R24). -/
theorem Effect.poly_eq (k : PReg) (hc : i ≠ .pclr k) (hm : ∀ pa pb, i ≠ .pmul k pa pb) (hg : ∀ n, i ≠ .genp k n)
    (hd : ∀ pg pm, i ≠ .rsdiv k pg pm) (hw : ∀ off len, i ≠ .cwld k off len) : t.poly k = s.poly k := by
  cases h with
  | pclr pd => exact s.poly_setPoly_other _ fun hk => hc (by rw [hk])
  | pmul pd => rw [State.poly_setPoly_other _ _ fun hk => hm _ _ (by rw [hk]), useTables_poly]
  | genp pd => rw [State.poly_setPoly_other _ _ fun hk => hg _ (by rw [hk]), useTables_poly]
  | rsdiv pd => rw [State.poly_setPoly_other _ _ fun hk => hd _ _ (by rw [hk]), useTables_poly]
  | cwld pd => exact s.poly_setPoly_other _ fun hk => hw _ _ (by rw [hk])
  | _ => simp [State.poly]

theorem Effect.bits_eq (hb : i ≠ .bclr) (hh : i ≠ .pkhdr) (hn : i ≠ .pknum) (ha : i ≠ .pkaln) (ht : i ≠ .pktrm)
    (hf : i ≠ .pkpad) (hp : i ≠ .pack) : t.bits = s.bits := by
  cases h with
  | bclr | pkhdr | pknum | pkaln | pktrm | pkpad | pack => contradiction
  | _ => simp

theorem Effect.error_eq (hi : i ≠ .eclr) : t.err = s.err ∧ t.errcode = s.errcode ∧ t.errinfo = s.errinfo := by
  cases h with
  | eclr => contradiction
  | _ => simp

/-- A command under the guard, or TINIT itself, leaves the tables that the guard leaves (R105, R106). -/
theorem Effect.tables_of_builds (hb : buildsTables i = true) :
    t.tinit = true ∧ t.exp = (useTables s).exp ∧ t.log = (useTables s).log := by
  cases h with
  | tinit | gfexp | gflog | gfmul | pmul | genp | rsdiv => exact ⟨useTables_tinit s, rfl, rfl⟩
  | _ => exact nomatch hb

theorem Effect.tables_of_not_builds (hb : buildsTables i = false) : t.tinit = s.tinit ∧ t.exp = s.exp ∧ t.log = s.log := by
  cases h with
  | tinit | gfexp | gflog | gfmul | pmul | genp | rsdiv => exact nomatch hb
  | _ => exact ⟨rfl, rfl, rfl⟩

/-- A command leaves `TINIT` and the tables alone or as the guard leaves them (R105). -/
theorem Effect.tables_cases : (t.tinit = s.tinit ∧ t.exp = s.exp ∧ t.log = s.log) ∨
    (t.tinit = true ∧ t.exp = (useTables s).exp ∧ t.log = (useTables s).log) := by
  cases hb : buildsTables i with
  | true => exact .inr (h.tables_of_builds hb)
  | false => exact .inl (h.tables_of_not_builds hb)

/-- A command does not change tables that are built (R23). -/
theorem Effect.tables_of_tinit (hs : s.tinit = true) : t.tinit = true ∧ t.tables = s.tables := by
  rcases h.tables_cases with ⟨ht, he, hl⟩ | ⟨ht, he, hl⟩
  · exact ⟨ht.trans hs, tables_congr he hl⟩
  · rw [useTables_of_tinit hs] at he hl
    exact ⟨ht, tables_congr he hl⟩

end frame

/-- An error leaves the tables alone (R186). -/
theorem raise_tables (e : ErrCode) (w : Word) (s : State) : (raise e w s).tables = s.tables :=
  tables_congr (raise_exp e w s) (raise_log e w s)

/-- Settles O22: a successful command item by item by the list of effects, a failed one because an error writes the error
items only. -/
theorem commandsChangeOnlyTheirDestination : Obligations.CommandsChangeOnlyTheirDestination := by
  intro i s t hexec
  rcases effect_or_raise_of_exec hexec with h | ⟨e, rfl, -⟩
  · obtain ⟨hccb, hdcw, hscript, hreply⟩ := h.config_port_eq
    refine ⟨hccb, hdcw, hscript, hreply, h.str_eq, h.mode_eq, h.res_eq, h.poly_eq, h.bits_eq, ?_, ?_, h.tables_of_not_builds,
      h.tables_cases⟩
    · intro hi hs
      obtain ⟨herr, herrors⟩ := h.error_eq hi
      exact ⟨herr.trans hs, herrors⟩
    · intro hi _ _
      exact (h.error_eq hi).2
  · have hpoly : ∀ k, (raise e (encode i) s).poly k = s.poly k := by simp [State.poly]
    simp +contextual [hpoly]

-- Only reset clears TINIT

/-- No write changes tables that are built (R23). -/
theorem WriteEffect.tables_of_tinit {a : Addr} {v : Word} {s t : State} (hw : WriteEffect a v s t) (hs : s.tinit = true) :
    t.tinit = true ∧ t.tables = s.tables := by
  cases hw with
  | command _ _ _ _ _ ht => exact ht.tables_of_tinit hs
  | refused | illegal | failed | strFull | polyFull => exact ⟨(raise_tinit ..).trans hs, raise_tables ..⟩
  | acknowledged | ignored | ccb | dcw | strPush | polyPush => exact ⟨hs, rfl⟩

theorem StepEffect.tables_of_tinit {s t : State} (he : StepEffect s t) (hs : s.tinit = true)
    (hr : ∀ rest, s.script ≠ .reset :: rest) : t.tinit = true ∧ t.tables = s.tables := by
  cases he with
  | idle | readOk => exact ⟨hs, rfl⟩
  | readRefused => exact ⟨(raise_tinit ..).trans hs, raise_tables ..⟩
  | write _ _ _ _ _ hw => exact hw.tables_of_tinit hs
  | reset rest h => exact absurd h (hr rest)

/-- Settles O20. -/
theorem onlyResetClearsTinit : Obligations.OnlyResetClearsTinit :=
  fun _ _ hs hstep hr => (StepEffect.of_step hstep).tables_of_tinit hs hr

end Sys2Proof.Machine
end

section
/-! PROOFS. The result of a command does not depend on `TINIT` (spec/10_state.md R23, spec/41_field_engine.md R105): running a
command commutes with building the tables. -/

namespace Sys2Proof.Machine

-- The guard commutes with the updates of the other items

section commute
variable (s : State)

@[simp] theorem useTables_raise (e : ErrCode) (w : Word) : useTables (raise e w s) = raise e w (useTables s) := by
  cases ht : s.tinit <;> cases he : s.err <;> simp [useTables, raise, Block.tables, ht, he]

@[simp] theorem useTables_clearError : useTables (clearError s) = clearError (useTables s) := by
  cases ht : s.tinit <;> simp [useTables, clearError, Block.tables, ht]

@[simp] theorem useTables_setPoly (k : PReg) (v : Poly) : useTables (s.setPoly k v) = (useTables s).setPoly k v := by
  cases ht : s.tinit <;> simp [useTables, State.setPoly, Block.tables, ht]

theorem useTables_setRes (r : Byte) : useTables { s with res := r } = { useTables s with res := r } := by
  cases ht : s.tinit <;> simp [useTables, Block.tables, ht]

theorem useTables_setStr (c : List Byte) : useTables { s with str := c } = { useTables s with str := c } := by
  cases ht : s.tinit <;> simp [useTables, Block.tables, ht]

theorem useTables_setMode (m : Mode) : useTables { s with mode := m } = { useTables s with mode := m } := by
  cases ht : s.tinit <;> simp [useTables, Block.tables, ht]

theorem useTables_setBits (b : BitSeq) : useTables { s with bits := b } = { useTables s with bits := b } := by
  cases ht : s.tinit <;> simp [useTables, Block.tables, ht]

theorem useTables_setModeBits (m : Mode) (b : BitSeq) :
    useTables { s with mode := m, bits := b } = { useTables s with mode := m, bits := b } := by
  cases ht : s.tinit <;> simp [useTables, Block.tables, ht]

@[simp] theorem useTables_countBits : (useTables s).countBits = s.countBits := by simp [State.countBits]

@[simp] theorem useTables_capacity : (useTables s).capacity = s.capacity := by simp [State.capacity]

end commute

-- What a map of the next state does to each form of a command's answer

@[simp] theorem onNext_next (f : State → State) (t : State) : onNext f (.next t) = .next (f t) := rfl

@[simp] theorem onNext_ite (f : State → State) (p : Prop) [Decidable p] (a b : Result) :
    onNext f (if p then a else b) = if p then onNext f a else onNext f b := apply_ite ..

@[simp] theorem onNext_useTables_failCommand (e : ErrCode) (i : Instr) (s : State) :
    onNext useTables (failCommand e i s) = failCommand e i (useTables s) := by simp [failCommand]

/-- Running a command commutes with building the tables first (R105): a command under the guard builds them itself, and any
other neither reads nor writes them. -/
theorem exec_useTables (i : Instr) (s : State) : exec i (useTables s) = onNext useTables (exec i s) := by
  cases i with
  | tinit => rfl
  | eclr => simp [exec, execEclr]
  | gfexp n => simp only [exec, execGfexp, onNext_next, useTables_setRes, useTables_useTables]
  | gflog n =>
    by_cases hn : n = 0
    · simp [exec, execGflog, gfLog, hn]
    · simp only [exec, execGflog, gfLog, if_neg hn, onNext_next, useTables_setRes, useTables_useTables]
  | gfmul x y => simp only [exec, execGfmul, onNext_next, useTables_setRes, useTables_useTables]
  | pclr pd => simp [exec, execPclr]
  | pmul pd pa pb => simp [exec, execPmul]
  | genp pd n => simp [exec, execGenp]
  | rsdiv pd pg pm => cases hg : (s.poly pg).head? <;> simp [exec, execRsdiv, hg]
  | cwld pd off len => simp [exec, execCwld]
  | sclr => simp [exec, execSclr, useTables_setStr]
  | msel => simp [exec, execMsel, useTables_setMode]
  | bclr => simp [exec, execBclr, useTables_setBits]
  | pkhdr => cases hm : s.mode.indicator <;> simp [exec, execPkhdr, hm, useTables_setBits]
  | pknum => simp [exec, execPknum, useTables_setBits]
  | pkaln => simp [exec, execPkaln, useTables_setBits]
  | pktrm => simp [exec, execPktrm, useTables_setBits]
  | pkpad => simp [exec, execPkpad, useTables_setBits]
  | pack => cases hm : (classify s.str).indicator <;> simp [exec, execPack, hm, useTables_setModeBits]

/-- Settles O23: building the tables after the command, or before it and again after it, is the same. -/
theorem resultsDoNotDependOnTinit : Obligations.ResultsDoNotDependOnTinit := by
  intro i s t u ht hu
  rw [exec_useTables, ht] at hu
  cases hu
  exact (useTables_useTables t).symm

end Sys2Proof.Machine
end

section
/-! PROOFS. The state after reset (spec/10_state.md R37). -/

namespace Sys2Proof.Machine

/-- A codeword of an empty stream is 0: every missing bit counts as 0 (R59). -/
theorem codeword_nil (i : Nat) : codeword [] i = 0 := by
  simp [codeword_eq, codewordSum]

theorem State.reset_poly (k : PReg) : State.reset.poly k = [] := by cases k <;> rfl

/-- Every cell that can be read holds 0 after reset (R37). -/
theorem cellContent_reset {c : Cell} {v : Word} (h : cellContent State.reset c = some v) : v = 0 := by
  cases c with
  | plen k | pdat k => simp_all [cellContent, State.reset_poly]
  | cwdat i => rw [cellContent, show State.reset.bits = [] from rfl, codeword_nil] at h; cases h; rfl
  | cmd | spush | ppush => cases h
  | _ => cases h; rfl

/-- Settles O16, the readable cells by the list of their contents. -/
theorem resetStateReadsZero : Obligations.ResetStateReadsZero := by
  refine ⟨rfl, rfl, State.reset_poly, rfl, rfl, rfl, rfl, rfl, rfl, rfl, rfl, fun a v h => ?_, rfl, rfl⟩
  obtain ⟨c, -, hc⟩ := Option.bind_eq_some_iff.mp h
  exact cellContent_reset hc

end Sys2Proof.Machine
end

section
/-! PROOFS. The cell map (spec/20_memory.md R51): cells and addresses correspond one to one, and the unmapped addresses are those
listed. -/

namespace Sys2Proof.Machine

/-- The address ranges that R51 leaves unmapped. -/
def Unmapped (a : Addr) : Prop :=
  (0x000B ≤ a.toNat ∧ a.toNat ≤ 0x000F) ∨ (0x0018 ≤ a.toNat ∧ a.toNat ≤ 0x03FF) ∨
    (0x0800 ≤ a.toNat ∧ a.toNat ≤ 0x1FFF) ∨ 0x5000 ≤ a.toNat

/-- The address of a cell leads back to the cell. -/
theorem cellOf_addr (c : Cell) : cellOf c.addr = some c := by
  cases c with
  | plen k | ppush k => cases k <;> rfl
  | pdat k i =>
    have := i.isLt
    have hk := k.number_lt
    have hn : (Cell.pdat k i).addr.toNat = 0x0400 + 0x100 * k.number + i.toNat := by
      rw [Cell.addr, BitVec.toNat_ofNat]; omega
    have hq : (0x0400 + 0x100 * k.number + i.toNat - 0x0400) / 0x100 = k.number := by omega
    have hr : (0x0400 + 0x100 * k.number + i.toNat) % 0x100 = i.toNat := by omega
    simp only [cellOf, hn, hq, hr]
    rw [if_neg (by omega), if_neg (by omega), if_pos (by omega)]
    simp
  | sdat i =>
    have := i.isLt
    have hn : (Cell.sdat i).addr.toNat = 0x2000 + i.toNat := by rw [Cell.addr, BitVec.toNat_ofNat]; omega
    simp only [cellOf, hn, Nat.add_sub_cancel_left]
    rw [if_neg (by omega), if_neg (by omega), if_neg (by omega), if_pos (by omega)]
    simp
  | cwdat i =>
    have := i.isLt
    have hn : (Cell.cwdat i).addr.toNat = 0x4000 + i.toNat := by rw [Cell.addr, BitVec.toNat_ofNat]; omega
    simp only [cellOf, hn, Nat.add_sub_cancel_left]
    rw [if_neg (by omega), if_neg (by omega), if_neg (by omega), if_neg (by omega), if_pos (by omega)]
    simp
  | _ => rfl

/-- Every address is the address of the cell it names, or lies in one of the unmapped ranges. -/
theorem addr_of_cellOf_or_unmapped (a : Addr) :
    (∃ c, cellOf a = some c ∧ c.addr = a ∧ ¬ Unmapped a) ∨ (cellOf a = none ∧ Unmapped a) := by
  have ha := a.isLt
  simp only [cellOf, Unmapped]
  -- the five windows of several cells
  iterate 5
    split
    · refine .inl ⟨_, rfl, BitVec.eq_of_toNat_eq ?_, by omega⟩
      simp only [Cell.addr, PReg.number_ofBits, BitVec.toNat_ofNat]; omega
  -- the single cells by their number, and what is left
  split
  case h_12 => exact .inr ⟨rfl, by simp only [imp_false] at *; omega⟩
  all_goals next hn => exact .inl ⟨_, rfl, BitVec.eq_of_toNat_eq hn.symm, by omega⟩

theorem cellOf_eq_none_iff (a : Addr) : cellOf a = none ↔ Unmapped a := by
  rcases addr_of_cellOf_or_unmapped a with ⟨c, hc, -, hu⟩ | ⟨hc, hu⟩
  · simp [hc, hu]
  · simp [hc, hu]

theorem addr_eq_of_cellOf {a : Addr} {c : Cell} (h : cellOf a = some c) : c.addr = a := by
  rcases addr_of_cellOf_or_unmapped a with ⟨c', hc, ha, -⟩ | ⟨hc, -⟩ <;> rw [h] at hc <;> cases hc
  exact ha

/-- Settles O10: every address is its cell's or unmapped, and a cell's address leads back to it. -/
theorem cellMapIsExact : Obligations.CellMapIsExact :=
  ⟨cellOf_addr, fun _ _ => addr_eq_of_cellOf, cellOf_eq_none_iff⟩

end Sys2Proof.Machine
end

section
/-! PROOFS. Reads (spec/20_memory.md R52, R57 to R59, R61): what a read returns and leaves, and what each readable cell holds. -/

namespace Sys2Proof.Machine

/-- The cells that cannot be read are those of access W (R54). -/
theorem cellContent_eq_none_iff (s : State) (c : Cell) : cellContent s c = none ↔ c.writeOnly = true := by
  cases c <;> simp [cellContent, Cell.writeOnly]

theorem readable_of_cellOf {a : Addr} {c : Cell} (h : cellOf a = some c) (s : State) : readable a s = cellContent s c := by
  simp [readable, h]

/-- The content of a cell by its address. -/
theorem readable_addr (c : Cell) (s : State) : readable c.addr s = cellContent s c := readable_of_cellOf (cellOf_addr c) s

/-- An address whose cell, if any, is of access W has no content to return. -/
theorem readable_eq_none {a : Addr} (h : ∀ c, cellOf a = some c → c.writeOnly = true) (s : State) : readable a s = none := by
  cases hc : cellOf a with
  | none => simp [readable, hc]
  | some c => rw [readable_of_cellOf hc, cellContent_eq_none_iff, h c hc]

theorem cellRead_of_readable {a : Addr} {s : State} {v : Word} (h : readable a s = some v) : cellRead a s = (v, s) := by
  simp [cellRead, h]

theorem cellRead_of_not_readable {a : Addr} {s : State} (h : readable a s = none) : cellRead a s = (0, accessError a s) := by
  simp [cellRead, h]

/-- The first access error records E_ACC and the address, and nothing else (R52, R53). -/
theorem accessError_of_no_err {s : State} (a : Addr) (h : s.err = false) :
    accessError a s = { s with err := true, errcode := 9, errinfo := a.setWidth 32 } := raise_of_no_err h

theorem accessError_of_err {s : State} (a : Addr) (h : s.err = true) : accessError a s = s := raise_of_err h

/-- Settles O11, by whether the address has a content to return. -/
theorem readReturnsContentOrRaises : Obligations.ReadReturnsContentOrRaises := by
  refine ⟨cellContent_eq_none_iff, fun s a => ⟨fun c v hc hv => ?_, fun hw => ?_⟩⟩
  · exact cellRead_of_readable ((readable_of_cellOf hc s).trans hv)
  · rw [cellRead_of_not_readable (readable_eq_none hw s)]
    exact ⟨fun h => by rw [accessError_of_no_err a h], fun h => by rw [accessError_of_err a h]⟩

/-- A number that fits its register is the number of the cell (R51: zero-extended). -/
theorem setWidth_ofNat_of_lt {w n : Nat} (h : n < 2 ^ w) : (BitVec.ofNat w n).setWidth 32 = BitVec.ofNat 32 n := by
  rw [← BitVec.ofNat_toNat, BitVec.toNat_ofNat, Nat.mod_eq_of_lt h]

/-- The number of an element, an absent one counting as 0 (R57, R58). -/
theorem setWidth_getD (l : List Byte) (i : Nat) :
    (l.getD i 0).setWidth 32 = BitVec.ofNat 32 (if i < l.length then (l.getD i 0).toNat else 0) := by
  split
  · rw [BitVec.ofNat_toNat]
  · next h => rw [List.getD_eq_default _ _ (Nat.le_of_not_lt h)]; rfl

/-- The number of the STATUS cell (R31). -/
theorem statusBits_setWidth (s : State) :
    (statusBits s).setWidth 32 = BitVec.ofNat 32 (s.err.toNat + 2 * s.tinit.toNat) := by
  refine setWidth_ofNat_of_lt ?_
  have := s.err.toNat_lt
  have := s.tinit.toNat_lt
  omega

theorem readable_plen (k : PReg) (s : State) :
    readable (BitVec.ofNat 16 (0x0010 + k.number)) s = some ((BitVec.ofNat 9 (s.poly k).length).setWidth 32) :=
  readable_addr (.plen k) s

theorem readable_pdat (k : PReg) {i : Nat} (h : i < 256) (s : State) :
    readable (BitVec.ofNat 16 (0x0400 + 0x100 * k.number + i)) s = some (((s.poly k).getD i 0).setWidth 32) := by
  simpa [Cell.addr, cellContent, Nat.mod_eq_of_lt h] using readable_addr (.pdat k (BitVec.ofNat 8 i)) s

theorem readable_sdat {i : Nat} (h : i < 8192) (s : State) :
    readable (BitVec.ofNat 16 (0x2000 + i)) s = some ((s.str.getD i 0).setWidth 32) := by
  simpa [Cell.addr, cellContent, Nat.mod_eq_of_lt h] using readable_addr (.sdat (BitVec.ofNat 13 i)) s

theorem readable_cwdat {i : Nat} (h : i < 4096) (s : State) :
    readable (BitVec.ofNat 16 (0x4000 + i)) s = some ((codeword s.bits i).setWidth 32) := by
  simpa [Cell.addr, cellContent, Nat.mod_eq_of_lt h] using readable_addr (.cwdat (BitVec.ofNat 12 i)) s

/-- Settles O12, cell by cell by its address; the lengths of R38 make each length fit its cell. -/
theorem cellsHoldTheState : Obligations.CellsHoldTheState := by
  intro s hs
  refine ⟨?status, ?errcode, rfl, ?res, ?mode, ?ccb, ?dcw, ?slen, ?blen, fun k => ?plen, fun k i hi => ?pdat, fun i hi => ?sdat,
    fun i hi => ?cwdat⟩
  case status => exact (readable_addr .status s).trans (congrArg some (statusBits_setWidth s))
  case errcode | res | ccb | dcw => rw [BitVec.ofNat_toNat]; rfl
  case mode =>
    refine (readable_addr .mode s).trans ?_
    cases h : s.mode <;> simp [cellContent, Mode.code, h]
  case slen => exact (readable_addr .slen s).trans (congrArg some (setWidth_ofNat_of_lt (hs.str.trans_lt (by decide))))
  case blen => exact (readable_addr .blen s).trans (congrArg some (setWidth_ofNat_of_lt (hs.bits.trans_lt (by decide))))
  case plen => rw [readable_plen, setWidth_ofNat_of_lt ((hs.polys k).trans_lt (by decide))]
  case pdat => rw [readable_pdat k hi, setWidth_getD]
  case sdat => rw [readable_sdat hi, setWidth_getD]
  case cwdat => rw [readable_cwdat hi, codeword_eq, setWidth_ofNat_of_lt (codewordSum_lt s.bits i)]

end Sys2Proof.Machine
end

section
/-! PROOFS. Writes with no error pending (spec/20_memory.md R53 to R56, R60). -/

namespace Sys2Proof.Machine

/-- With no error pending a write of a mapped cell has the cell's effect (R53). -/
theorem cellWrite_of_cellOf {s : State} {a : Addr} {c : Cell} (h : s.err = false) (hc : cellOf a = some c) (v : Word) :
    cellWrite a v s = cellEffect a c v s := by simp [cellWrite, h, hc]

theorem cellWrite_addr {s : State} (h : s.err = false) (c : Cell) (v : Word) :
    cellWrite c.addr v s = cellEffect c.addr c v s := cellWrite_of_cellOf h (cellOf_addr c) v

theorem cellEffect_of_not_writable {c : Cell} (h : c.writable = false) (a : Addr) (v : Word) (s : State) :
    cellEffect a c v s = .next (accessError a s) := by
  cases c with
  | cmd | spush | ppush | ccb | dcw => exact nomatch h
  | _ => rfl

/-- With no error pending a write against the access right is an access error (R53 step 2). -/
theorem cellWrite_of_not_writable {s : State} {a : Addr} (h : s.err = false)
    (hw : ∀ c, cellOf a = some c → c.writable = false) (v : Word) : cellWrite a v s = .next (accessError a s) := by
  cases hc : cellOf a with
  | none => simp [cellWrite, h, hc]
  | some c => rw [cellWrite_of_cellOf h hc, cellEffect_of_not_writable (hw c hc)]

/-- Settles O15: the write is an access error, and the first one. -/
theorem forbiddenWritesRaiseAccess : Obligations.ForbiddenWritesRaiseAccess := by
  intro s a v h hw
  rw [cellWrite_of_not_writable h hw, accessError_of_no_err a h]

/-- Settles O13: a write of a push cell is its push, whose error is the first one. -/
theorem pushAppendsOrRaisesFull : Obligations.PushAppendsOrRaisesFull := by
  intro s v h
  refine ⟨fun k => (cellWrite_addr h (.ppush k) v).trans ?_, (cellWrite_addr h .spush v).trans ?_⟩
  · have haddr : (Cell.ppush k).addr.setWidth 32 = BitVec.ofNat 32 (0x0014 + k.number) :=
      setWidth_ofNat_of_lt (by have := k.number_lt; omega)
    rw [cellEffect, pushCoeff, raise_of_no_err h, haddr, ← BitVec.ofNat_toNat]
    rfl
  · rw [cellEffect, pushChar, raise_of_no_err h, ← BitVec.ofNat_toNat]
    rfl

/-- Settles O14, by the effects of the two cells. -/
theorem configurationWritesStoreLowBits : Obligations.ConfigurationWritesStoreLowBits := by
  intro s v h
  simp only [BitVec.ofNat_toNat]
  exact ⟨cellWrite_addr h .ccb v, cellWrite_addr h .dcw v⟩

end Sys2Proof.Machine
end

section
/-! PROOFS. A step and the host's moves (spec/20_memory.md R65, R70; log 1): the step performs the next move, never stops, and
depends on the block and the move alone. -/

namespace Sys2Proof.Machine

/-- Settles O5: a read and a write are what `perform` does with them. -/
theorem stepPerformsTheNextMove : Obligations.StepPerformsTheNextMove :=
  fun _ _ _ => ⟨fun h => step_move h, fun _ h => step_move h⟩

/-- Every command has an outcome that is a state (R209). -/
theorem exec_next (i : Instr) (s : State) : ∃ t, exec i s = .next t := by
  rcases exec_cases i s with ⟨t, ht, -⟩ | ⟨e, ht, -⟩
  · exact ⟨t, ht⟩
  · exact ⟨_, ht⟩

theorem step_next (s : State) : ∃ t, step s = .next t := by
  obtain ⟨t, ht, -⟩ := step_cases s
  exact ⟨t, ht⟩

/-- Settles O21, from the lists of what a step and a command can do. -/
theorem nothingStopsTheBlock : Obligations.NothingStopsTheBlock := ⟨step_next, exec_next, fun _ => step_idle⟩

/-- Every move has an outcome that is a state (R70): a step performs it. -/
theorem perform_next (m : HostMove) (s : State) : ∃ t, perform m s = .next t := by
  obtain ⟨t, ht⟩ := step_next { s with script := m :: s.script }
  exact ⟨t, (step_move (s := { s with script := m :: s.script }) rfl).symm.trans ht⟩

theorem readable_withPort (a : Addr) (s : State) (l : List HostMove) (r : Option Word) :
    readable a (s.withPort l r) = readable a s :=
  congrArg (cellOf a).bind (funext fun c => by cases c <;> rfl)

/-- A read neither looks at the host's side of the port nor writes it (R65). -/
theorem cellRead_withPort (a : Addr) (s : State) (l : List HostMove) (r : Option Word) :
    cellRead a (s.withPort l r) = ((cellRead a s).1, (cellRead a s).2.withPort l r) := by
  cases h : readable a s with
  | none =>
    rw [cellRead_of_not_readable h, cellRead_of_not_readable ((readable_withPort a s l r).trans h), accessError,
      raise_withPort]
    rfl
  | some v => rw [cellRead_of_readable h, cellRead_of_readable ((readable_withPort a s l r).trans h)]

/-- A move gives the same block and the same reply whatever the host's other moves and the earlier reply are (R65). -/
theorem perform_withPort (m : HostMove) (s : State) (l : List HostMove) (r : Option Word) :
    perform m (s.withPort l r) = onNext (fun t => t.withPort l t.reply) (perform m s) := by
  cases m with
  | read a => simp only [perform, cellRead_withPort]; rfl
  | write a v =>
    have hl : perform (.write a v) (s.withPort l r) = onNext (·.withPort l none) (cellWrite a v s) :=
      cellWrite_withPort a v s l none
    have hs : perform (.write a v) s = onNext (·.withPort s.script none) (cellWrite a v s) :=
      cellWrite_withPort a v s s.script none
    obtain ⟨t, ht, -⟩ := cellWrite_cases a v s
    rw [hl, hs, ht]
    rfl
  | reset => rfl

/-- Settles O57: the step's move on the block with the rest of the script is the same move on the block alone. -/
theorem stepIsTheBlocksAccess : Obligations.StepIsTheBlocksAccess := by
  intro s m rest h
  obtain ⟨t, ht⟩ := perform_next m { toBlock := s.toBlock, script := [], reply := none }
  refine ⟨t.toBlock, t.reply, by rw [Block.access, ht], ?_⟩
  calc step s = perform m (State.withPort { toBlock := s.toBlock, script := [], reply := none } rest s.reply) := step_move h
    _ = .next (t.withPort rest t.reply) := by rw [perform_withPort, ht]; rfl

end Sys2Proof.Machine
end

section
/-! PROOFS. The decoder inverts the encoder, and a word is a command exactly when it matches a row of the opcode map
(spec/30_encoding.md R81 to R85). -/

namespace Sys2Proof

-- What each format accepts (R81): the low 24 bits are the number of the operands

theorem formatZ_eq_some_iff {w : Word} {i j : Instr} : formatZ w i = some j ↔ w.toNat % 2 ^ 24 = 0 ∧ i = j := by
  simp [formatZ, mustBeZero_iff]

theorem formatN_eq_some_iff {w : Word} {f : Byte → Instr} {j : Instr} :
    formatN w f = some j ↔ ∃ n, w.toNat % 2 ^ 24 = n.toNat ∧ f n = j := by
  simp only [formatN, mustBeZero_iff, Option.ite_none_right_eq_some, Option.some.injEq]
  constructor
  · rintro ⟨hz, h⟩
    exact ⟨_, by rw [field_toNat]; omega, h⟩
  · rintro ⟨n, hn, h⟩
    have := n.isLt
    exact ⟨by omega, by rw [field_eq_of_toNat (v := n) (by omega), h]⟩

theorem formatXY_eq_some_iff {w : Word} {f : Byte → Byte → Instr} {j : Instr} :
    formatXY w f = some j ↔ ∃ x y, w.toNat % 2 ^ 24 = x.toNat * 2 ^ 8 + y.toNat ∧ f x y = j := by
  simp only [formatXY, mustBeZero_iff, Option.ite_none_right_eq_some, Option.some.injEq]
  constructor
  · rintro ⟨hz, h⟩
    exact ⟨_, _, by simp only [field_toNat]; omega, h⟩
  · rintro ⟨x, y, hn, h⟩
    have := x.isLt
    have := y.isLt
    exact ⟨by omega, by rw [field_eq_of_toNat (v := x) (by omega), field_eq_of_toNat (v := y) (by omega), h]⟩

theorem formatP_eq_some_iff {w : Word} {f : PReg → Instr} {j : Instr} :
    formatP w f = some j ↔ ∃ pd, w.toNat % 2 ^ 24 = pd.number * 2 ^ 16 ∧ f pd = j := by
  simp only [formatP, Bool.and_eq_true, mustBeZero_iff, Option.ite_none_right_eq_some, Option.some.injEq]
  constructor
  · rintro ⟨hz, h⟩
    exact ⟨_, by rw [regField_number]; omega, h⟩
  · rintro ⟨pd, hn, h⟩
    have := pd.number_lt
    exact ⟨by omega, by rw [regField_eq_of_number (k := pd) (by omega), h]⟩

theorem formatPPP_eq_some_iff {w : Word} {f : PReg → PReg → PReg → Instr} {j : Instr} :
    formatPPP w f = some j ↔
      ∃ pd pa pb, w.toNat % 2 ^ 24 = pd.number * 2 ^ 16 + pa.number * 2 ^ 8 + pb.number ∧ f pd pa pb = j := by
  simp only [formatPPP, Bool.and_eq_true, mustBeZero_iff, Option.ite_none_right_eq_some, Option.some.injEq]
  constructor
  · rintro ⟨hz, h⟩
    exact ⟨_, _, _, by simp only [regField_number]; omega, h⟩
  · rintro ⟨pd, pa, pb, hn, h⟩
    have := pd.number_lt
    have := pa.number_lt
    have := pb.number_lt
    exact ⟨by omega, by rw [regField_eq_of_number (k := pd) (by omega), regField_eq_of_number (k := pa) (by omega),
      regField_eq_of_number (k := pb) (by omega), h]⟩

theorem formatPN_eq_some_iff {w : Word} {f : PReg → Byte → Instr} {j : Instr} :
    formatPN w f = some j ↔ ∃ pd n, w.toNat % 2 ^ 24 = pd.number * 2 ^ 16 + n.toNat ∧ f pd n = j := by
  simp only [formatPN, Bool.and_eq_true, mustBeZero_iff, Option.ite_none_right_eq_some, Option.some.injEq]
  constructor
  · rintro ⟨hz, h⟩
    exact ⟨_, _, by simp only [regField_number, field_toNat]; omega, h⟩
  · rintro ⟨pd, n, hn, h⟩
    have := pd.number_lt
    have := n.isLt
    exact ⟨by omega, by rw [regField_eq_of_number (k := pd) (by omega), field_eq_of_toNat (v := n) (by omega), h]⟩

theorem formatPL_eq_some_iff {w : Word} {f : PReg → BitVec 12 → BitVec 10 → Instr} {j : Instr} :
    formatPL w f = some j ↔ ∃ pd off len,
      w.toNat % 2 ^ 24 = pd.number * 2 ^ 22 + off.toNat * 2 ^ 10 + len.toNat ∧ len.toNat ≤ 256 ∧ f pd off len = j := by
  simp only [formatPL, Option.ite_none_right_eq_some, Option.some.injEq]
  constructor
  · rintro ⟨hl, h⟩
    exact ⟨_, _, _, by simp only [regField_number, field_toNat]; omega, hl, h⟩
  · rintro ⟨pd, off, len, hn, hl, h⟩
    have := pd.number_lt
    have := off.isLt
    have := len.isLt
    have hlen : field w 0 10 = len := field_eq_of_toNat (by omega)
    exact ⟨by rw [hlen]; exact hl, by
      rw [regField_eq_of_number (k := pd) (by omega), field_eq_of_toNat (v := off) (by omega), hlen, h]⟩

-- The decoder and the encoder are inverse

/-- Encoding what a word decodes to gives the word back: its opcode is the row's and its fields are the operands. -/
theorem encode_of_decode {w : Word} {i : Instr} (h : decode w = some i) : encode i = w := by
  refine BitVec.eq_of_toNat_eq ?_
  have hw := w.isLt
  rw [encode_toNat]
  simp only [decode, field_toNat] at h
  split at h
  -- the rows in the order of R84, by format
  case h_3 | h_4 => obtain ⟨n, hn, rfl⟩ := formatN_eq_some_iff.mp h; simp only [encodeNat]; omega
  case h_5 => obtain ⟨x, y, hn, rfl⟩ := formatXY_eq_some_iff.mp h; simp only [encodeNat]; omega
  case h_6 => obtain ⟨pd, hn, rfl⟩ := formatP_eq_some_iff.mp h; simp only [encodeNat]; omega
  case h_7 | h_9 => obtain ⟨pd, pa, pb, hn, rfl⟩ := formatPPP_eq_some_iff.mp h; simp only [encodeNat]; omega
  case h_8 => obtain ⟨pd, n, hn, rfl⟩ := formatPN_eq_some_iff.mp h; simp only [encodeNat]; omega
  case h_10 => obtain ⟨pd, off, len, hn, -, rfl⟩ := formatPL_eq_some_iff.mp h; simp only [encodeNat]; omega
  case h_20 => exact nomatch h
  all_goals obtain ⟨hn, rfl⟩ := formatZ_eq_some_iff.mp h; simp only [encodeNat]; omega

-- A word that matches a row is read in the row's format (R83, R84)

/-- The format in which a word is read when its opcode is that of a command's row (R84). -/
def rowFormat (w : Word) : Instr → Option Instr
  | .tinit => formatZ w .tinit
  | .eclr => formatZ w .eclr
  | .gfexp _ => formatN w .gfexp
  | .gflog _ => formatN w .gflog
  | .gfmul _ _ => formatXY w .gfmul
  | .pclr _ => formatP w .pclr
  | .pmul _ _ _ => formatPPP w .pmul
  | .genp _ _ => formatPN w .genp
  | .rsdiv _ _ _ => formatPPP w .rsdiv
  | .cwld _ _ _ => formatPL w .cwld
  | .sclr => formatZ w .sclr
  | .msel => formatZ w .msel
  | .bclr => formatZ w .bclr
  | .pkhdr => formatZ w .pkhdr
  | .pknum => formatZ w .pknum
  | .pkaln => formatZ w .pkaln
  | .pktrm => formatZ w .pktrm
  | .pkpad => formatZ w .pkpad
  | .pack => formatZ w .pack

/-- A word that matches a row holds the row's bits wherever the mask is all ones. -/
theorem field_of_matches {w mask pattern : Word} (h : w &&& mask = pattern) {lo n : Nat}
    (hm : field mask lo n = BitVec.allOnes n) : field w lo n = field pattern lo n := by
  rw [← h, field, field, BitVec.extractLsb'_and, ← field, ← field, hm, BitVec.and_allOnes]

theorem mustBeZero_of_matches {w mask pattern : Word} (h : w &&& mask = pattern) {lo n : Nat}
    (hm : field mask lo n = BitVec.allOnes n) (hp : field pattern lo n = 0) : mustBeZero w lo n = true := by
  rw [mustBeZero, field_of_matches h hm, hp]; simp

/-- Every row's mask holds the whole opcode, so a word that matches the row is read in its format. -/
theorem decode_of_matches {w : Word} {i : Instr} (h : w &&& (opcodeRow i).mask = (opcodeRow i).pattern) :
    decode w = rowFormat w i := by
  have hop : field w 24 8 = field (opcodeRow i).pattern 24 8 := field_of_matches h (by cases i <;> simp only [opcodeRow] <;> rfl)
  rw [decode, hop]
  cases i <;> simp only [opcodeRow] <;> rfl

/-- The word of every command matches the command's row, whatever the operands. -/
theorem encode_matchesRow : ∀ i, Laws.MatchesRow.Statement i
  | .tinit => Laws.MatchesRow.tinit
  | .eclr => Laws.MatchesRow.eclr
  | .gfexp n => Laws.MatchesRow.gfexp n
  | .gflog n => Laws.MatchesRow.gflog n
  | .gfmul x y => Laws.MatchesRow.gfmul x y
  | .pclr pd => Laws.MatchesRow.pclr pd
  | .pmul pd pa pb => Laws.MatchesRow.pmul pd pa pb
  | .genp pd n => Laws.MatchesRow.genp pd n
  | .rsdiv pd pg pm => Laws.MatchesRow.rsdiv pd pg pm
  | .cwld pd off len => Laws.MatchesRow.cwld pd off len
  | .sclr => Laws.MatchesRow.sclr
  | .msel => Laws.MatchesRow.msel
  | .bclr => Laws.MatchesRow.bclr
  | .pkhdr => Laws.MatchesRow.pkhdr
  | .pknum => Laws.MatchesRow.pknum
  | .pkaln => Laws.MatchesRow.pkaln
  | .pktrm => Laws.MatchesRow.pktrm
  | .pkpad => Laws.MatchesRow.pkpad
  | .pack => Laws.MatchesRow.pack

/-- Decoding the word of a command gives the command back: the word matches the command's row, and its low 24 bits are the
operands of the row's format. -/
theorem decode_encode {i : Instr} (h : i.wellFormed = true) : decode (encode i) = some i := by
  rw [decode_of_matches (encode_matchesRow i)]
  have hw := encode_toNat i
  cases i with simp only [rowFormat, encodeNat] at hw ⊢
  | gfexp n | gflog n => exact formatN_eq_some_iff.mpr ⟨n, by omega, rfl⟩
  | gfmul x y => exact formatXY_eq_some_iff.mpr ⟨x, y, by omega, rfl⟩
  | pclr pd => have := pd.number_lt; exact formatP_eq_some_iff.mpr ⟨pd, by omega, rfl⟩
  | pmul pd pa pb | rsdiv pd pa pb =>
    have := pd.number_lt
    have := pa.number_lt
    have := pb.number_lt
    exact formatPPP_eq_some_iff.mpr ⟨pd, pa, pb, by omega, rfl⟩
  | genp pd n => have := pd.number_lt; exact formatPN_eq_some_iff.mpr ⟨pd, n, by omega, rfl⟩
  | cwld pd off len =>
    have := pd.number_lt
    exact formatPL_eq_some_iff.mpr ⟨pd, off, len, by omega, of_decide_eq_true h, rfl⟩
  | _ => exact formatZ_eq_some_iff.mpr ⟨by omega, rfl⟩

/-- A word that matches a row is a command of that row; in CWLD's row `len` must be at most 256 (R83 step 3). -/
theorem exists_decode_of_matches {w : Word} {i : Instr} (h : w &&& (opcodeRow i).mask = (opcodeRow i).pattern)
    (hlen : (opcodeRow i).pattern = 0x24000000 → w.toNat % 1024 ≤ 256) :
    ∃ j, decode w = some j ∧ opcodeRow j = opcodeRow i := by
  rw [decode_of_matches h]
  cases i with simp only [opcodeRow] at h
  | pclr pd | genp pd n =>
    refine ⟨_, if_pos (Bool.and_eq_true_iff.mpr ⟨?_, ?_⟩), rfl⟩
    all_goals exact mustBeZero_of_matches h rfl rfl
  | pmul pd pa pb | rsdiv pd pa pb =>
    refine ⟨_, if_pos (Bool.and_eq_true_iff.mpr ⟨Bool.and_eq_true_iff.mpr ⟨?_, ?_⟩, ?_⟩), rfl⟩
    all_goals exact mustBeZero_of_matches h rfl rfl
  | cwld pd off len => exact ⟨_, if_pos (by rw [field_toNat]; have := hlen rfl; omega), rfl⟩
  | _ => exact ⟨_, if_pos (mustBeZero_of_matches h rfl rfl), rfl⟩

/-- Settles O1. -/
theorem decodeInvertsEncode : Obligations.DecodeInvertsEncode := fun _ => decode_encode

/-- Settles O2: a decoded word is its command's, which matches the row, and a word that matches a row is decoded. -/
theorem decodeFollowsOpcodeMap : Obligations.DecodeFollowsOpcodeMap := by
  refine fun w => ⟨fun i hd => ?_, fun i => exists_decode_of_matches⟩
  have he := encode_of_decode hd
  exact ⟨he ▸ encode_matchesRow i, Machine.decode_wellFormed hd, he⟩

/-- Settles O3. -/
theorem printedWordsDecode : Obligations.PrintedWordsDecode := by
  unfold Obligations.PrintedWordsDecode
  decide

end Sys2Proof
end

section
/-! PROOFS. The host's moves one at a time and in a row: a command written to CMD (spec/30_encoding.md R87), and the script lines
that load a register, the string buffer and the configuration (R88, R89; log 1). -/

namespace Sys2Proof.Machine

theorem runWord_of_decode {w : Word} {i : Instr} (h : decode w = some i) (s : State) : runWord w s = exec i s := by
  simp [runWord, h]

theorem runWord_of_illegal {w : Word} (h : decode w = none) (s : State) : runWord w s = .next (raise .ill w s) := by
  simp [runWord, h]

/-- With no error pending a step whose move is a write of a cell has the cell's effect (R53, R65). -/
theorem step_write {s : State} {c : Cell} {v : Word} {rest : List HostMove} (h : s.err = false)
    (hs : s.script = .write c.addr v :: rest) : step s = cellEffect c.addr c v (s.withPort rest none) :=
  (step_move hs).trans (cellWrite_addr (s := s.withPort rest none) h c v)

/-- A command line runs its command (R88): its word decodes to it. -/
theorem step_issue {s : State} {i : Instr} {rest : List HostMove} (h : s.err = false) (hi : i.wellFormed = true)
    (hs : s.script = issue i :: rest) : step s = exec i (s.withPort rest none) :=
  (step_write h hs).trans (runWord_of_decode (decode_encode hi) _)

/-- What a command does is what its line does; the move leaves the script and the reply is empty (log 1). -/
theorem step_issue_next {s t : State} {i : Instr} {rest : List HostMove} (h : s.err = false) (hi : i.wellFormed = true)
    (hs : s.script = issue i :: rest) (he : exec i s = .next t) : step s = .next (t.withPort rest none) := by
  rw [step_issue h hi hs, exec_withPort, he]
  rfl

/-- The same for a block whose next move is the line. -/
theorem step_issue_withPort {s t : State} {i : Instr} {rest : List HostMove} {r : Option Word} (h : s.err = false)
    (hi : i.wellFormed = true) (he : exec i s = .next t) :
    step (s.withPort (issue i :: rest) r) = .next (t.withPort rest none) :=
  (step_issue (s := s.withPort (issue i :: rest) r) h hi rfl).trans
    ((exec_withPort i s rest none).trans (congrArg (onNext (·.withPort rest none)) he))

/-- Settles O4: the CMD write runs the word. -/
theorem stepRunsTheWrittenCommand : Obligations.StepRunsTheWrittenCommand := by
  intro s w h
  refine ⟨fun rest hs => ?_, fun i hd => ?_⟩
  · have hstep : step s = runWord w (s.withPort rest none) := step_write (c := .cmd) h hs
    exact ⟨fun i hd => hstep.trans (runWord_of_decode hd _), fun hd => hstep.trans (runWord_of_illegal hd _)⟩
  · have hs : (s.withFetchWord 32 w.toNat).script = .write Cell.cmd.addr w :: s.script := by
      simp [State.withFetchWord, scheduleWord, Cell.addr, Nat.mod_eq_of_lt w.isLt]
    exact (step_write (s := s.withFetchWord 32 w.toNat) h hs).trans (runWord_of_decode hd _)

-- Runs of the machine

/-- A run of one step more takes the step first, on any machine. -/
theorem coreRun_succ {M : Host.Core} {s t : M.State} (h : M.step s = .next t) (n : Nat) : M.run (n + 1) s = M.run n t := by
  rw [Host.Core.run, h]

theorem run_succ {s t : State} (h : step s = .next t) (n : Nat) : core.run (n + 1) s = core.run n t :=
  coreRun_succ (M := core) (s := s) (t := t) h n

-- Pushes in a row (R55, R56)

section pushes
variable {c : Cell} {cap : Nat} {load : List Byte → State}

/-- If a push to a cell makes a block that holds `l` one that holds `l` and the byte, as long as `l` is below the capacity, the
pushes of a list append it. -/
theorem run_pushes (herr : ∀ l, (load l).err = false)
    (hpush : ∀ l b p, l.length < cap →
      cellEffect c.addr c (b.setWidth 32) ((load l).withPort p none) = .next ((load (l ++ [b])).withPort p none))
    (rest : List HostMove) (bs l : List Byte) (hlen : l.length + bs.length ≤ cap) :
    core.run bs.length ((load l).withPort (bs.map (pushMove c) ++ rest) none) =
      .next ((load (l ++ bs)).withPort rest none) := by
  induction bs generalizing l with
  | nil => rw [List.append_nil]; rfl
  | cons b bs ih =>
    rw [List.length_cons] at hlen
    have hstep : step ((load l).withPort ((b :: bs).map (pushMove c) ++ rest) none) =
        .next ((load (l ++ [b])).withPort (bs.map (pushMove c) ++ rest) none) :=
      (step_write (s := (load l).withPort _ none) (herr l) rfl).trans (hpush l b _ (by omega))
    rw [List.length_cons, run_succ hstep, ih _ (by simp; omega), List.append_assoc]
    rfl

end pushes

/-- A byte written to a push cell arrives as it is (R55, R56: the low 8 bits). -/
theorem setWidth_pushed (b : Byte) : (b.setWidth 32).setWidth 8 = b := by simp

theorem pushCoeff_of_room {s : State} {k : PReg} (h : (s.poly k).length < Config.pmax) (a : Addr) (v : Word) :
    pushCoeff a k v s = s.setPoly k (s.poly k ++ [v.setWidth 8]) := if_neg h.ne

theorem pushChar_of_room {s : State} (h : s.str.length < Config.smax) (a : Addr) (v : Word) :
    pushChar a v s = { s with str := s.str ++ [v.setWidth 8] } := if_neg h.ne

theorem setPoly_setPoly (s : State) (k : PReg) (v w : Poly) : (s.setPoly k v).setPoly k w = s.setPoly k w := by
  cases k <;> rfl

theorem withPort_setPoly (s : State) (k : PReg) (v : Poly) (l : List HostMove) (r : Option Word) :
    (s.withPort l r).setPoly k v = (s.setPoly k v).withPort l r := rfl

/-- `.poly` (R89): the register is emptied, then every coefficient is pushed. -/
theorem run_loadPoly {s : State} {k : PReg} {cs : List Byte} {rest : List HostMove} (h : s.err = false)
    (hlen : cs.length ≤ Config.pmax) (hs : s.script = (ScriptLine.loadPoly k cs).moves ++ rest) :
    core.run (cs.length + 1) s = .next ((s.setPoly k cs).withPort rest none) := by
  refine (run_succ (step_issue h rfl hs) _).trans ?_
  refine run_pushes (load := s.setPoly k) (cap := Config.pmax) (fun _ => h) (fun l b p hl => ?_) rest cs [] (by simpa using hlen)
  rw [cellEffect, pushCoeff_of_room (by simpa using hl), setWidth_pushed, withPort_poly, State.poly_setPoly_same,
    withPort_setPoly, setPoly_setPoly]

/-- `.str` (R89): the buffer is emptied, then every code is pushed. -/
theorem run_loadStr {s : State} {codes : List Byte} {rest : List HostMove} (h : s.err = false)
    (hlen : codes.length ≤ Config.smax) (hs : s.script = (ScriptLine.loadStr codes).moves ++ rest) :
    core.run (codes.length + 1) s = .next (({ s with str := codes } : State).withPort rest none) := by
  refine (run_succ (step_issue h rfl hs) _).trans ?_
  refine run_pushes (load := fun l => { s with str := l }) (cap := Config.smax) (fun _ => h) (fun l b p hl => ?_) rest codes []
    (by simpa using hlen)
  rw [cellEffect, pushChar_of_room hl, setWidth_pushed]
  rfl

/-- `.cfg` (R89): the two configuration writes. -/
theorem run_config {s : State} {ccb dcw : Word} {rest : List HostMove} (h : s.err = false)
    (hs : s.script = (ScriptLine.config ccb dcw).moves ++ rest) :
    core.run 2 s = .next (({ s with ccb := ccb.setWidth 5, dcw := dcw.setWidth 12 } : State).withPort rest none) := by
  refine (run_succ (step_write (c := .ccb) h hs) 1).trans ?_
  exact run_succ (step_write (s := ({ s with ccb := ccb.setWidth 5 } : State).withPort (.write Cell.dcw.addr dcw :: rest) none)
    (c := .dcw) h rfl) 0

/-- Settles O55, line by line. -/
theorem scriptLinesLoadTheBlock : Obligations.ScriptLinesLoadTheBlock := by
  intro s rest h
  refine ⟨fun k cs => run_loadPoly h, fun codes => run_loadStr h, fun ccb dcw hs => ?_⟩
  simp only [BitVec.ofNat_toNat]
  exact run_config h hs

end Sys2Proof.Machine
end

section
/-! PROOFS. Values of polynomials (spec/42_reed_solomon.md R122 to R124): evaluation is linear, the generator is monic and is 0 at
its roots, and a message followed by its remainder is 0 wherever the generator is. -/

namespace Sys2Proof.Machine

-- Horner's rule from any starting value

/-- Horner's rule with the value `a` of the coefficients already read. -/
def horner (x a : Byte) (p : Poly) : Byte := p.foldl (fun acc c => fieldMul acc x ^^^ c) a

theorem refEval_eq_horner (p : Poly) (x : Byte) : refEval p x = horner x 0 p := rfl

@[simp] theorem horner_nil (x a : Byte) : horner x a [] = a := rfl

@[simp] theorem horner_cons (x a c : Byte) (p : Poly) : horner x a (c :: p) = horner x (fieldMul a x ^^^ c) p := rfl

@[simp] theorem horner_append (x a : Byte) (p q : Poly) : horner x a (p ++ q) = horner x (horner x a p) q :=
  List.foldl_append

/-- Absent terms contribute nothing. -/
@[simp] theorem horner_zeros (x : Byte) (n : Nat) : horner x 0#8 (List.replicate n 0#8) = 0#8 := by
  induction n with
  | zero => rfl
  | succ n ih => simp [List.replicate_succ, ih]

/-- Evaluation is additive in the coefficients. -/
theorem horner_xor (x a b : Byte) {p q : Poly} (h : p.length = q.length) :
    horner x (a ^^^ b) (List.zipWith (· ^^^ ·) p q) = horner x a p ^^^ horner x b q := by
  induction p generalizing a b q with
  | nil => cases q with
    | nil => rfl
    | cons d q => cases h
  | cons c p ih => cases q with
    | nil => cases h
    | cons d q =>
      have hab : fieldMul (a ^^^ b) x ^^^ (c ^^^ d) = (fieldMul a x ^^^ c) ^^^ (fieldMul b x ^^^ d) := by
        rw [fieldMul_xor_left]; ac_rfl
      simp only [List.zipWith_cons_cons, horner_cons]
      rw [hab, ih _ _ (by simpa using h)]

/-- Evaluation scales with the coefficients. -/
theorem horner_map_mul (x a b : Byte) (p : Poly) :
    horner x (fieldMul a b) (p.map fun c => fieldMul c b) = fieldMul (horner x a p) b := by
  induction p generalizing a with
  | nil => rfl
  | cons c p ih =>
    have hab : fieldMul (fieldMul a b) x ^^^ fieldMul c b = fieldMul (fieldMul a x ^^^ c) b := by
      rw [fieldMul_xor_left, fieldMul_assoc, fieldMul_assoc, fieldMul_comm b x]
    rw [List.map_cons, horner_cons, horner_cons, hab, ih]

theorem refEval_xor (x : Byte) {p q : Poly} (h : p.length = q.length) :
    refEval (List.zipWith (· ^^^ ·) p q) x = refEval p x ^^^ refEval q x := horner_xor x 0 0 h

theorem refEval_map_mul (x b : Byte) (p : Poly) : refEval (p.map fun c => fieldMul c b) x = fieldMul (refEval p x) b := by
  have := horner_map_mul x 0 b p
  simpa [refEval_eq_horner] using this

@[simp] theorem zipWith_xor_zeros (p : Poly) : List.zipWith (· ^^^ ·) p (List.replicate p.length 0#8) = p := by
  induction p with
  | nil => rfl
  | cons c p ih => simp [List.replicate_succ, ih]

/-- A leading 0 does not count. -/
theorem refEval_zero_cons (p : Poly) (x : Byte) : refEval (0 :: p) x = refEval p x := by simp [refEval_eq_horner]

/-- Zeros at the end keep a root. -/
theorem refEval_append_zeros {p : Poly} {x : Byte} (h : refEval p x = 0) (n : Nat) : refEval (p ++ List.replicate n 0) x = 0 := by
  rw [refEval_eq_horner, horner_append, ← refEval_eq_horner, h]
  exact horner_zeros x n

/-- The value of a sequence is that of its head, zeros in place of its end, plus that of its end. -/
theorem refEval_append (x : Byte) (p q : Poly) :
    refEval (p ++ q) x = refEval q x ^^^ refEval (p ++ List.replicate q.length 0) x := by
  have := horner_xor x 0 (refEval p x) (p := q) (q := List.replicate q.length 0) (by simp)
  simpa [refEval_eq_horner] using this

-- The generator polynomial (R122)

theorem refMul_linear_getD_zero {p : Poly} (hp : p ≠ []) (r : Byte) : (refMul p [1, r]).getD 0 0 = p.getD 0 0 := by
  rw [refMul_getD _ _ _ hp (by simp)]
  simp [sumOf]

theorem sumOf_pair (a b : Byte) : sumOf [a, b] = a ^^^ b := by simp [sumOf]

theorem refMul_linear_getD_succ {p : Poly} (hp : p ≠ []) (r : Byte) (k : Nat) :
    (refMul p [1, r]).getD (k + 1) 0 = p.getD (k + 1) 0 ^^^ fieldMul (p.getD k 0) r := by
  have hlow : sumOf ((List.range k).map fun i => fieldMul (p.getD i 0) ([1, r].getD (k + 1 - i) 0)) = 0 := by
    refine sumOf_eq_zero fun y hy => ?_
    obtain ⟨i, hi, rfl⟩ := List.mem_map.mp hy
    have hd : [1, r].getD (k + 1 - i) 0 = 0 :=
      List.getD_eq_default _ _ (by have := List.mem_range.mp hi; simp only [List.length_cons, List.length_nil]; omega)
    rw [hd]
    exact fieldMul_zero_right _
  have hr : [1, r].getD (k + 1 - k) 0 = r := by rw [Nat.add_sub_cancel_left]; rfl
  have h1 : [1, r].getD (k + 1 - (k + 1)) 0 = 1 := by rw [Nat.sub_self]; rfl
  rw [refMul_getD _ _ _ hp (by simp), List.range_succ, List.range_succ, List.append_assoc, List.map_append, sumOf_append, hlow]
  simp only [List.map_cons, List.map_nil, List.cons_append, List.nil_append, hr, h1, sumOf_pair, fieldMul_one_right]
  exact BitVec.zero_xor.trans (BitVec.xor_comm ..)

theorem getD_append_zero (p : Poly) (k : Nat) : (p ++ [0]).getD k 0 = p.getD k 0 := by
  rcases Nat.lt_or_ge k p.length with hk | hk
  · exact List.getD_append _ _ _ _ hk
  · rw [List.getD_append_right _ _ _ _ hk, List.getD_eq_default _ _ hk]
    cases k - p.length <;> rfl

/-- The product with a linear factor `x + r` is `p` shifted up plus `p` times `r`. -/
theorem refMul_linear {p : Poly} (hp : p ≠ []) (r : Byte) :
    refMul p [1, r] = List.zipWith (· ^^^ ·) (p ++ [0]) (0 :: p.map fun c => fieldMul c r) := by
  refine List.ext_getElem (by simp) fun k hk hk' => ?_
  have hlen : k < (p ++ [0]).length := by simpa using hk
  rw [← List.getD_eq_getElem _ 0 hk, List.getElem_zipWith, ← List.getD_eq_getElem _ 0 hlen, getD_append_zero]
  cases k with
  | zero => rw [refMul_linear_getD_zero hp, List.getElem_cons_zero]; exact BitVec.xor_zero.symm
  | succ k =>
    have hk : k < p.length := by simpa using hlen
    rw [refMul_linear_getD_succ hp, List.getElem_cons_succ, List.getElem_map, List.getD_eq_getElem _ 0 hk]

/-- The value of a product with a linear factor (R124). -/
theorem refEval_refMul_linear {p : Poly} (hp : p ≠ []) (r x : Byte) :
    refEval (refMul p [1, r]) x = fieldMul (refEval p x) (x ^^^ r) := by
  have hshift : refEval (p ++ [0]) x = fieldMul (refEval p x) x := by simp [refEval_eq_horner]
  have hzero : refEval (0 :: p.map fun c => fieldMul c r) x = refEval (p.map fun c => fieldMul c r) x := by
    simp [refEval_eq_horner]
  rw [refMul_linear hp, refEval_xor x (by simp), hshift, hzero, refEval_map_mul, fieldMul_xor_right]

@[simp] theorem length_refGen (n : Nat) : (refGen n).length = n + 1 := by
  induction n with
  | zero => rfl
  | succ n ih => simp [refGen, ih]

theorem refGen_ne_nil (n : Nat) : refGen n ≠ [] := List.ne_nil_of_length_pos (by simp)

/-- The generator is monic (R122). -/
theorem refGen_head? (n : Nat) : (refGen n).head? = some 1 := by
  induction n with
  | zero => rfl
  | succ n ih =>
    obtain ⟨p, hp⟩ := List.head?_eq_some_iff.mp ih
    rw [refGen, refMul_linear (refGen_ne_nil n), hp]
    rfl

/-- Each of its factors gives the generator a root (R124 (c)). -/
theorem refEval_refGen {n i : Nat} (h : i < n) : refEval (refGen n) (fieldPow2 i) = 0 := by
  induction n with
  | zero => cases h
  | succ n ih =>
    rw [refGen, refEval_refMul_linear (refGen_ne_nil n)]
    rcases Nat.lt_succ_iff_lt_or_eq.mp h with hlt | rfl
    · rw [ih hlt]; exact fieldMul_zero_left _
    · rw [BitVec.xor_self]; exact fieldMul_zero_right _

-- The division (R123)

/-- The xor with a shorter sequence is the xor with that sequence zero-extended. -/
theorem xorPrefix_eq_zipWith {w s : Poly} (h : s.length ≤ w.length) :
    xorPrefix w s = List.zipWith (· ^^^ ·) w (s ++ List.replicate (w.length - s.length) 0) := by
  induction s generalizing w with
  | nil =>
    have hw : xorPrefix w [] = w := by cases w <;> rfl
    rw [hw, List.nil_append, List.length_nil, Nat.sub_zero]
    exact (zipWith_xor_zeros w).symm
  | cons b s ih => cases w with
    | nil => cases h
    | cons a w => simp [xorPrefix, ih (Nat.le_of_succ_le_succ h)]

/-- Taking away a sequence that is 0 at a point keeps the value there. -/
theorem refEval_xorPrefix {w s : Poly} {x : Byte} (h : s.length ≤ w.length) (hs : refEval s x = 0) :
    refEval (xorPrefix w s) x = refEval w x := by
  rw [xorPrefix_eq_zipWith h, refEval_xor x (by simp; omega), refEval_append_zeros hs]
  exact BitVec.xor_zero

section division
variable {t : Tables} {g : Poly} {x : Byte} (ht : t.Built) (hlead : g.head? = some 1) (hroot : refEval g x = 0)
include ht hlead hroot

/-- A step of the division keeps the value wherever the generator is 0: the leading term it drops is 0, and what it took away
before is the generator times a scalar. -/
theorem refEval_divideStep {w : Poly} (hlen : g.length ≤ w.length) : refEval (divideStep t g w) x = refEval w x := by
  obtain ⟨g, rfl⟩ := List.head?_eq_some_iff.mp hlead
  cases w with
  | nil => cases hlen
  | cons a w =>
    have hscaled : refEval ((1 :: g).map fun c => fieldMul c a) x = 0 := by
      rw [refEval_map_mul, hroot]; exact fieldMul_zero_left _
    have hdrop : xorPrefix (a :: w) ((1 :: g).map fun c => fieldMul c a) = 0 :: divideStep t (1 :: g) (a :: w) := by
      simp [divideStep, xorPrefix, ht.gfMul_eq]
    rw [← refEval_zero_cons, ← hdrop, refEval_xorPrefix (by simpa using hlen) hscaled]

theorem refEval_divideLoop (n : Nat) {w : Poly} (hlen : n + g.length ≤ w.length + 1) :
    refEval (divideLoop t g n w) x = refEval w x := by
  induction n generalizing w with
  | zero => rfl
  | succ n ih => rw [divideLoop, ih (by simp; omega), refEval_divideStep ht hlead hroot (by omega)]

/-- A message followed by its remainder is 0 wherever the generator is (R124 (f)). -/
theorem refEval_append_rsDivide (m : Poly) : refEval (m ++ rsDivide t g m) x = 0 := by
  have hrem : refEval (rsDivide t g m) x = refEval (m ++ List.replicate (g.length - 1) 0) x := by
    refine refEval_divideLoop ht hlead hroot _ ?_
    cases g with
    | nil => cases hlead
    | cons a g => simp [Nat.add_assoc]
  rw [refEval_append, length_rsDivide, hrem, BitVec.xor_self]
  rfl

end division

-- The two commands (R127, R128)

/-- GENP never fails: every `n` of its field fits PMAX (R127). -/
theorem exec_genp (pd : PReg) (n : Byte) (s : State) :
    exec (.genp pd n) s = .next ((useTables s).setPoly pd (genPoly (useTables s).tables n.toNat)) := by
  have hn := n.isLt
  exact if_neg (by simp only [Config.pmax]; omega)

/-- RSDIV with a monic generator (R128). -/
theorem exec_rsdiv_of_monic {s : State} {pg : PReg} (h : (s.poly pg).head? = some 1) (pd pm : PReg) :
    exec (.rsdiv pd pg pm) s =
      .next ((useTables s).setPoly pd (rsDivide (useTables s).tables (s.poly pg) (s.poly pm))) := by
  rw [exec, execRsdiv]
  simp [h]

/-- RSDIV over a monic generator in its own destination, the tables built: the remainder takes the generator's place. -/
theorem exec_rsdiv_in_place (s : State) {pd pm : PReg} (hne : pd ≠ pm) {g : Poly} (hg : g.head? = some 1) :
    exec (.rsdiv pd pd pm) ((useTables s).setPoly pd g) =
      .next ((useTables s).setPoly pd (rsDivide (useTables s).tables g (s.poly pm))) := by
  have hmsg : ((useTables s).setPoly pd g).poly pm = s.poly pm :=
    (State.poly_setPoly_other _ _ hne.symm).trans (useTables_poly s pm)
  have hbuilt : useTables ((useTables s).setPoly pd g) = (useTables s).setPoly pd g := by simp
  rw [exec_rsdiv_of_monic (by rwa [State.poly_setPoly_same]), hbuilt, hmsg, State.poly_setPoly_same, setPoly_setPoly]
  rfl

/-- RSENC as its two commands (R89, R130): the correction codewords take the place of the generator. -/
theorem run_rsenc {s : State} {pd pm : PReg} {n : Byte} {rest : List HostMove} (herr : s.err = false) (hne : pd ≠ pm)
    (ht : (useTables s).tables.Built) (hs : s.script = (ScriptLine.rsenc pd pm n).moves ++ rest) :
    core.run 2 s = .next (((useTables s).setPoly pd
      (rsDivide (useTables s).tables (refGen n.toNat) (s.poly pm))).withPort rest none) := by
  have hgenp : exec (.genp pd n) s = .next ((useTables s).setPoly pd (refGen n.toNat)) := by
    rw [exec_genp, ht.genPoly_eq _ (Nat.le_of_lt_succ n.isLt)]
  have herr' : ((useTables s).setPoly pd (refGen n.toNat)).err = false := by simpa using herr
  refine (run_succ (step_issue_next herr rfl hs hgenp) 1).trans (run_succ ?_ 0)
  exact step_issue_withPort herr' rfl (exec_rsdiv_in_place s hne (refGen_head? _))

/-- Settles O56: GENP leaves the generator, a monic polynomial that is 0 at the points named, and RSDIV its remainder. -/
theorem rsencComputesCorrectionCodewords : Obligations.RsencComputesCorrectionCodewords := by
  intro s pd pm n rest herr hready hne hs
  have ht := useTables_built hready
  refine ⟨rsDivide (useTables s).tables (refGen n.toNat) (s.poly pm), by simp, fun i hi => ?_, ?_⟩
  · exact refEval_append_rsDivide ht (refGen_head? _) (refEval_refGen hi) _
  · rw [run_rsenc herr hne ht hs, setPoly_useTables]
    rfl

end Sys2Proof.Machine
end

section
/-! PROOFS. The Field Arithmetic Engine (spec/41_field_engine.md R100 to R109): the tables the construction loop leaves, the laws of
the field functions over built tables, and the four commands. -/

namespace Sys2Proof.Machine

-- The construction loop (R100)

/-- Settles O24: with `TINIT` = 0 the guard leaves the values of R110, which are the loop's. -/
theorem tinitBuildsTheTablesOnce : Obligations.TinitBuildsTheTablesOnce := by
  refine fun s => ⟨fun ht => congrArg Host.Outcome.next (useTables_of_tinit ht), fun ht he hl => ?_⟩
  rw [constructTables_eq s.tables he hl, exec, execTinit, useTables, if_neg (by simp [ht])]

theorem constructTables_built {t : Tables} (he : t.exp.length = 256) (hl : t.log.length = 256) : (constructTables t).Built := by
  rw [constructTables_eq t he hl]
  exact buildTables_built t

theorem Tables.Built.logAt_lt {t : Tables} (h : t.Built) {x : Byte} (hx : x ≠ 0) : (t.logAt x.toNat).toNat < 255 := by
  rw [h.logAt_toNat hx]
  exact fieldLog_lt x

/-- On built tables `LOG[x]` is the exponent of `x` (R22). -/
theorem Tables.Built.fieldPow2_logAt {t : Tables} (h : t.Built) {x : Byte} (hx : x ≠ 0) :
    fieldPow2 (t.logAt x.toNat).toNat = x := by
  rw [h.logAt_toNat hx, fieldPow2_log hx]

/-- Settles O25: the loop's tables are built, and keep the lengths and `LOG[0]` of the printed ones. -/
theorem constructionLeavesPowersAndLogarithms : Obligations.ConstructionLeavesPowersAndLogarithms := by
  intro t he hl
  have hbuilt := constructTables_built he hl
  have heq := constructTables_eq t he hl
  refine ⟨?_, ?_, fun i hi => ?_, ?_, fun n h1 h256 => ?_, ?_⟩
  · rw [heq]; exact buildTables_length_exp t
  · rw [heq]; exact buildTables_length_log t
  · exact (hbuilt.expAt i).trans (builtExp_eq_pow2 i hi)
  · exact hbuilt.gfExp_eq 255
  · have hn : (BitVec.ofNat 8 n).toNat = n := Nat.mod_eq_of_lt h256
    have hx : BitVec.ofNat 8 n ≠ 0 := fun h0 => by
      have hz : n = 0 := hn.symm.trans (congrArg BitVec.toNat h0)
      omega
    have hlog := And.intro (hbuilt.logAt_lt hx) (hbuilt.fieldPow2_logAt hx)
    rwa [hn] at hlog
  · rw [heq]; rfl

-- The field functions over built tables (R101 to R104)

theorem Tables.Built.gfExp_of_ne {t : Tables} (h : t.Built) {n : Byte} (hn : n ≠ 255) : gfExp t n = fieldPow2 n.toNat := by
  rw [h.gfExp_eq, if_neg hn]

theorem ne_255_of_toNat_lt {n : Byte} (h : n.toNat < 255) : n ≠ 255 := fun h' => absurd h (by rw [h']; decide)

theorem toNat_lt_of_ne_255 {n : Byte} (h : n ≠ 255) : n.toNat < 255 :=
  Nat.lt_of_le_of_ne (Nat.le_of_lt_succ n.isLt) fun h' => h (BitVec.eq_of_toNat_eq h')

theorem gfLog_of_ne (t : Tables) {n : Byte} (hn : n ≠ 0) : gfLog t n = some (t.logAt n.toNat) := if_neg hn

/-- `exp(log(n)) = n` (R104 (a)). -/
theorem Tables.Built.gfExp_logAt {t : Tables} (h : t.Built) {n : Byte} (hn : n ≠ 0) : gfExp t (t.logAt n.toNat) = n := by
  rw [h.gfExp_of_ne (ne_255_of_toNat_lt (h.logAt_lt hn)), h.fieldPow2_logAt hn]

/-- `log(exp(i)) = i` below 255 (R104 (b)). -/
theorem Tables.Built.gfLog_gfExp {t : Tables} (h : t.Built) {i : Byte} (hi : i ≠ 255) : gfLog t (gfExp t i) = some i := by
  have hpow := fieldPow2_ne_zero i.toNat
  rw [h.gfExp_of_ne hi, gfLog_of_ne t hpow, Option.some_inj]
  exact BitVec.eq_of_toNat_eq ((h.logAt_toNat hpow).trans (fieldLog_pow2 (toNat_lt_of_ne_255 hi)))

/-- The inverse of a nonzero element is the power whose exponent completes its own to 255 (R104 (c)). -/
theorem fieldMul_inverse {x : Byte} (h : x ≠ 0) : fieldMul x (fieldPow2 (255 - fieldLog x)) = 1 := by
  have hlt := fieldLog_lt x
  calc fieldMul x (fieldPow2 (255 - fieldLog x))
      = fieldMul (fieldPow2 (fieldLog x)) (fieldPow2 (255 - fieldLog x)) := by rw [fieldPow2_log h]
    _ = fieldPow2 255 := by rw [fieldMul_pow2, Nat.add_sub_cancel' hlt.le]
    _ = 1 := fieldPow2_255

/-- Settles O29: table multiplication is the field product, whose laws it has. -/
theorem fieldFunctionsObeyTheirLaws : Obligations.FieldFunctionsObeyTheirLaws := by
  intro t h
  have hmul := h.gfMul_eq
  refine ⟨fun n hn => ⟨_, gfLog_of_ne t hn, h.gfExp_logAt hn⟩, fun i hi => h.gfLog_gfExp hi, fun x y => ⟨hmul x y, ?_⟩,
    fun x y z => ⟨?_, ?_⟩, fun x => ⟨?_, ?_, ?_, ?_⟩, fun x hx => ⟨fieldPow2 (255 - fieldLog x), ?_⟩, ?_⟩
  · rw [hmul, hmul, fieldMul_comm]
  · simp only [hmul, fieldMul_assoc]
  · simp only [hmul, fieldMul_xor_right]
  · exact (hmul 1 x).trans (fieldMul_one_left x)
  · exact (hmul x 1).trans (fieldMul_one_right x)
  · exact (hmul 0 x).trans (fieldMul_zero_left x)
  · exact (hmul x 0).trans (fieldMul_zero_right x)
  · exact (hmul _ _).trans (fieldMul_inverse hx)
  · exact (hmul 2 128).trans (by decide)

-- The commands (R107 to R109)

/-- A write of RES after the guard, as one record update. -/
theorem setRes_useTables (s : State) (r : Byte) : { useTables s with res := r } =
    { s with exp := (useTables s).exp, log := (useTables s).log, tinit := true, res := r } := by
  conv_lhs => rw [useTables_eq s]

theorem exec_gfexp (n : Byte) (s : State) :
    exec (.gfexp n) s = .next { useTables s with res := gfExp (useTables s).tables n } := rfl

theorem exec_gfmul (x y : Byte) (s : State) :
    exec (.gfmul x y) s = .next { useTables s with res := gfMul (useTables s).tables x y } := rfl

theorem exec_gflog_of_ne {n : Byte} (hn : n ≠ 0) (s : State) :
    exec (.gflog n) s = .next { useTables s with res := (useTables s).tables.logAt n.toNat } := by
  rw [exec, execGflog, gfLog_of_ne _ hn]

/-- The logarithm of 0 is the DomainError (R102). -/
theorem exec_gflog_zero (s : State) : exec (.gflog 0) s = .next (raise .dom 0x11000000 s) := rfl

/-- Settles O26. -/
theorem gfexpWritesThePower : Obligations.GfexpWritesThePower := fun s n hready => by
  rw [exec_gfexp, setRes_useTables, (useTables_built hready).gfExp_eq]

/-- Settles O27, by whether the operand is 0. -/
theorem gflogWritesTheLogarithm : Obligations.GflogWritesTheLogarithm := by
  refine ⟨fun s n hready hn => ?_, fun s herr => ?_⟩
  · have hbuilt := useTables_built hready
    exact ⟨_, hbuilt.logAt_lt hn, hbuilt.fieldPow2_logAt hn, by rw [exec_gflog_of_ne hn, setRes_useTables]⟩
  · rw [exec_gflog_zero, raise_of_no_err herr, ErrCode.code]

/-- Settles O28. -/
theorem gfmulIsTheFieldProduct : Obligations.GfmulIsTheFieldProduct := fun s x y hready => by
  rw [exec_gfmul, setRes_useTables, (useTables_built hready).gfMul_eq]

/-- Settles O30: GFLOG leaves the tables built, so that GFEXP reads the tables GFLOG read. -/
theorem expOfLogIsTheIdentity : Obligations.ExpOfLogIsTheIdentity := by
  intro s n hready hn
  refine ⟨_, _, exec_gflog_of_ne hn s, exec_gfexp _ _, ?_⟩
  rw [useTables_setRes, useTables_useTables]
  exact (useTables_built hready).gfExp_logAt hn

end Sys2Proof.Machine
end

section
/-! PROOFS. The Reed-Solomon Encoder (spec/42_reed_solomon.md R120 to R129): the product one coefficient at a time, the division
as a product with its quotient plus a remainder, and the five commands with their errors. -/

namespace Sys2Proof.Machine

-- The product, one coefficient of its right factor at a time (R121)

theorem productSum_nil_right (p : Poly) (k : Nat) :
    sumOf ((List.range (k + 1)).map fun i => fieldMul (p.getD i 0) (([] : Poly).getD (k - i) 0)) = 0 :=
  sumOf_eq_zero fun y hy => by
    obtain ⟨i, -, rfl⟩ := List.mem_map.mp hy
    exact fieldMul_zero_right _

/-- The empty sequence stands for 0: its product has as many coefficients as R121's length says, all of them 0. -/
@[simp] theorem refMul_nil_right (p : Poly) : refMul p [] = List.replicate (p.length - 1) 0 := by
  simp only [refMul, productSum_nil_right, List.map_const', List.length_range, List.length_nil, Nat.add_zero]

/-- Every coefficient of a product, with an empty right factor too. -/
theorem refMul_getD_of_left {p : Poly} (hp : p ≠ []) (q : Poly) (k : Nat) :
    (refMul p q).getD k 0 = sumOf ((List.range (k + 1)).map fun i => fieldMul (p.getD i 0) (q.getD (k - i) 0)) := by
  cases q with
  | nil => rw [refMul_nil_right, productSum_nil_right, List.getD_eq_getElem?_getD, List.getElem?_getD_replicate_default_eq]
  | cons a q => exact refMul_getD _ _ _ hp (List.cons_ne_nil a q)

/-- Coefficient `k` of a product: the term of the right factor's leading coefficient, then those of the rest, one place
later. -/
theorem refMul_cons_getD {p : Poly} (hp : p ≠ []) (a : Byte) (q : Poly) (k : Nat) :
    (refMul p (a :: q)).getD k 0 = fieldMul (p.getD k 0) a ^^^ (0 :: refMul p q).getD k 0 := by
  have hlead : sumOf [fieldMul (p.getD k 0) ((a :: q).getD (k - k) 0)] = fieldMul (p.getD k 0) a := by
    rw [Nat.sub_self]
    exact BitVec.zero_xor
  have hrest : sumOf ((List.range k).map fun i => fieldMul (p.getD i 0) ((a :: q).getD (k - i) 0)) =
      (0 :: refMul p q).getD k 0 := by
    cases k with
    | zero => rfl
    | succ k =>
      rw [List.getD_cons_succ, refMul_getD_of_left hp]
      refine congrArg sumOf (List.map_congr_left fun i hi => ?_)
      rw [Nat.succ_sub (Nat.le_of_lt_succ (List.mem_range.mp hi)), List.getD_cons_succ]
  rw [refMul_getD_of_left hp, List.range_succ, List.map_append, sumOf_append, List.map_singleton, hlead, hrest,
    BitVec.xor_comm]

theorem getD_append_zeros (p : Poly) (n k : Nat) : (p ++ List.replicate n 0).getD k 0 = p.getD k 0 := by
  rcases Nat.lt_or_ge k p.length with hk | hk
  · exact List.getD_append _ _ _ _ hk
  · rw [List.getD_append_right _ _ _ _ hk, List.getD_eq_default _ _ hk, List.getD_eq_getElem?_getD,
      List.getElem?_getD_replicate_default_eq]

theorem getD_map_fieldMul (p : Poly) (a : Byte) (k : Nat) :
    (p.map fun c => fieldMul c a).getD k 0 = fieldMul (p.getD k 0) a := by
  have h := List.getD_map (l := p) (d := 0) (n := k) fun c => fieldMul c a
  rwa [show fieldMul 0 a = 0 from fieldMul_zero_left a] at h

/-- The product with `a` followed by `q`: the left factor times `a` at the front, plus the product with `q`. -/
theorem refMul_cons {p : Poly} (hp : p ≠ []) (a : Byte) (q : Poly) :
    refMul p (a :: q) =
      List.zipWith (· ^^^ ·) ((p.map fun c => fieldMul c a) ++ List.replicate q.length 0) (0 :: refMul p q) := by
  have hpos := List.length_pos_of_ne_nil hp
  refine List.ext_getElem (by simp; omega) fun k hk hk' => ?_
  rw [List.getElem_zipWith, ← List.getD_eq_getElem _ 0, ← List.getD_eq_getElem _ 0, ← List.getD_eq_getElem _ 0,
    getD_append_zeros, getD_map_fieldMul, refMul_cons_getD hp]

@[simp] theorem zipWith_zeros_xor (p : Poly) : List.zipWith (· ^^^ ·) (List.replicate p.length 0#8) p = p := by
  rw [List.zipWith_comm_of_comm BitVec.xor_comm, zipWith_xor_zeros]

/-- 1 is a right unit of the product (R124 (a)). -/
theorem refMul_one_right {p : Poly} (hp : p ≠ []) : refMul p [1] = p := by
  have hzeros : 0 :: List.replicate (p.length - 1) (0 : Byte) = List.replicate p.length 0 := by
    rw [← List.replicate_succ, Nat.sub_add_cancel (List.length_pos_of_ne_nil hp)]
  rw [refMul_cons hp, refMul_nil_right, hzeros]
  simp

/-- 1 is a left unit of the product (R124 (a)). -/
theorem refMul_one_left (q : Poly) : refMul [1] q = q := by
  induction q with
  | nil => rfl
  | cons a q ih =>
    rw [refMul_cons (by decide), ih]
    simp

-- Sums of sequences in GF(256)

theorem zipWith_xor_self (p : Poly) : List.zipWith (· ^^^ ·) p p = List.replicate p.length 0 := by
  simp

/-- What is added twice is gone. -/
theorem zipWith_xor_cancel {s w : Poly} (h : s.length = w.length) (z : Poly) :
    List.zipWith (· ^^^ ·) s (List.zipWith (· ^^^ ·) (List.zipWith (· ^^^ ·) w s) z) = List.zipWith (· ^^^ ·) w z := by
  have hbyte : ∀ a b c : Byte, a ^^^ (b ^^^ a ^^^ c) = b ^^^ c := fun a b c => by
    rw [BitVec.xor_comm b, BitVec.xor_assoc, ← BitVec.xor_assoc, BitVec.xor_self, BitVec.zero_xor]
  refine List.ext_getElem (by simp [h]) fun k hk hk' => ?_
  simp only [List.getElem_zipWith, hbyte]

-- The quotient of a division (R123)

section quotient
variable {t : Tables} (ht : t.Built) {g : Poly} (hlead : g.head? = some 1)
include ht hlead

/-- The term that a step of the division drops is 0: the step takes the scaled generator away (R123). -/
theorem zero_cons_divideStep {n : Nat} {w : Poly} (a : Byte) (hlen : w.length + 1 = g.length + n) :
    0 :: divideStep t g (a :: w) =
      List.zipWith (· ^^^ ·) (a :: w) ((g.map fun c => fieldMul c a) ++ List.replicate n 0) := by
  have hscaled := xorPrefix_eq_zipWith (w := a :: w) (s := g.map fun c => fieldMul c a) (by simp; omega)
  rw [List.length_map, List.length_cons, hlen, Nat.add_sub_cancel_left] at hscaled
  rw [← hscaled]
  obtain ⟨g, rfl⟩ := List.head?_eq_some_iff.mp hlead
  simp [divideStep, xorPrefix, ht.gfMul_eq]

/-- A quotient of what a step of the division leaves is one of what the step began with, once the leading coefficient of that
step stands in front. -/
theorem refMul_cons_of_divideStep {a : Byte} {q w z : Poly} (hlen : w.length + 1 = g.length + q.length)
    (h : refMul g q = List.zipWith (· ^^^ ·) (divideStep t g (a :: w)) z) :
    refMul g (a :: q) = List.zipWith (· ^^^ ·) (a :: w) (0 :: z) := by
  have hg : g ≠ [] := by rintro rfl; cases hlead
  have hcons : 0 :: refMul g q = List.zipWith (· ^^^ ·) (0 :: divideStep t g (a :: w)) (0 :: z) := by
    rw [h, List.zipWith_cons_cons, BitVec.xor_self]; rfl
  rw [refMul_cons hg, hcons, zero_cons_divideStep ht hlead a hlen, zipWith_xor_cancel (by simp [hlen])]

/-- What `n` steps of the division take away from `w` is a product of the generator. -/
theorem exists_quotient (n : Nat) {w : Poly} (hlen : w.length + 1 = g.length + n) :
    ∃ q : Poly, q.length = n ∧
      refMul g q = List.zipWith (· ^^^ ·) w (List.replicate n 0 ++ divideLoop t g n w) := by
  induction n generalizing w with
  | zero =>
    refine ⟨[], rfl, ?_⟩
    rw [refMul_nil_right, divideLoop, List.replicate_zero, List.nil_append, zipWith_xor_self]
    congr 1
    omega
  | succ n ih =>
    cases w with
    | nil =>
      obtain ⟨g, rfl⟩ := List.head?_eq_some_iff.mp hlead
      simp at hlen
      omega
    | cons a w =>
      have hlen : w.length + 1 = g.length + n := Nat.succ_inj.mp hlen
      obtain ⟨q, rfl, hmul⟩ := ih (w := divideStep t g (a :: w)) (by simpa using hlen)
      exact ⟨a :: q, rfl, refMul_cons_of_divideStep ht hlead hlen hmul⟩

/-- A message followed by its remainder is the product of the generator and a quotient as long as the message. -/
theorem exists_refMul_eq_append_rsDivide (m : Poly) :
    ∃ q : Poly, q.length = m.length ∧ refMul g q = m ++ rsDivide t g m := by
  obtain ⟨g', hg⟩ := List.head?_eq_some_iff.mp hlead
  obtain ⟨q, hq, hmul⟩ := exists_quotient ht hlead m.length (w := m ++ List.replicate (g.length - 1) 0)
    (by simp [hg]; omega)
  refine ⟨q, hq, hmul.trans ?_⟩
  have hend : List.zipWith (· ^^^ ·) (List.replicate (g.length - 1) 0#8) (rsDivide t g m) = rsDivide t g m := by
    rw [← length_rsDivide t g m, zipWith_zeros_xor]
  rw [List.zipWith_append (by simp), ← rsDivide]
  exact congrArg₂ _ (zipWith_xor_zeros m) hend

end quotient

theorem rsDivide_nil (t : Tables) (g : Poly) : rsDivide t g [] = List.replicate (g.length - 1) 0 := rfl

-- The division is linear in the message (R124 (g))

@[simp] theorem xorPrefix_nil_right (w : Poly) : xorPrefix w [] = w := by cases w <;> rfl

theorem xorPrefix_xor {w w' s s' : Poly} (hw : w.length = w'.length) (hs : s.length = s'.length) :
    xorPrefix (List.zipWith (· ^^^ ·) w w') (List.zipWith (· ^^^ ·) s s') =
      List.zipWith (· ^^^ ·) (xorPrefix w s) (xorPrefix w' s') := by
  induction s generalizing w w' s' with
  | nil =>
    obtain rfl := List.length_eq_zero_iff.mp hs.symm
    simp
  | cons b s ih =>
    obtain ⟨b', s', rfl⟩ := List.exists_cons_of_length_eq_add_one hs.symm
    cases w with
    | nil =>
      obtain rfl := List.length_eq_zero_iff.mp hw.symm
      rfl
    | cons a w =>
      obtain ⟨a', w', rfl⟩ := List.exists_cons_of_length_eq_add_one hw.symm
      have hab : a ^^^ a' ^^^ (b ^^^ b') = a ^^^ b ^^^ (a' ^^^ b') := by ac_rfl
      simp only [List.zipWith_cons_cons, xorPrefix, hab, ih (Nat.succ_inj.mp hw) (Nat.succ_inj.mp hs)]

section linear
variable {t : Tables} (ht : t.Built) (g : Poly)
include ht

theorem divideStep_xor {w w' : Poly} (h : w.length = w'.length) :
    divideStep t g (List.zipWith (· ^^^ ·) w w') =
      List.zipWith (· ^^^ ·) (divideStep t g w) (divideStep t g w') := by
  have hhead : (List.zipWith (· ^^^ ·) w w').headD 0 = w.headD 0 ^^^ w'.headD 0 := by
    cases w <;> cases w' <;> simp_all
  have hscaled : (g.map fun c => gfMul t c ((List.zipWith (· ^^^ ·) w w').headD 0)) =
      List.zipWith (· ^^^ ·) (g.map fun c => gfMul t c (w.headD 0)) (g.map fun c => gfMul t c (w'.headD 0)) := by
    simp only [List.zipWith_map, List.zipWith_self, hhead, ht.gfMul_eq, fieldMul_xor_right]
  rw [divideStep, hscaled, xorPrefix_xor h (by simp), List.tail_zipWith]
  rfl

theorem divideLoop_xor (n : Nat) {w w' : Poly} (h : w.length = w'.length) :
    divideLoop t g n (List.zipWith (· ^^^ ·) w w') =
      List.zipWith (· ^^^ ·) (divideLoop t g n w) (divideLoop t g n w') := by
  induction n generalizing w w' with
  | zero => rfl
  | succ n ih =>
    rw [divideLoop, divideStep_xor ht g h, ih (by simp [h])]
    rfl

theorem rsDivide_xor {m m' : Poly} (h : m.length = m'.length) :
    rsDivide t g (List.zipWith (· ^^^ ·) m m') = List.zipWith (· ^^^ ·) (rsDivide t g m) (rsDivide t g m') := by
  have hpad : List.zipWith (· ^^^ ·) m m' ++ List.replicate (g.length - 1) 0 =
      List.zipWith (· ^^^ ·) (m ++ List.replicate (g.length - 1) 0) (m' ++ List.replicate (g.length - 1) 0) := by
    rw [List.zipWith_append h, zipWith_xor_self, List.length_replicate]
  rw [rsDivide, hpad, divideLoop_xor ht g _ (by simp [h])]
  simp [rsDivide, h]

end linear

-- The errors of a command

/-- A command that fails with no error pending records its error and its word, and changes nothing else (R181, R186). -/
theorem failCommand_of_no_err {s : State} (h : s.err = false) (e : ErrCode) (i : Instr) :
    failCommand e i s = .next { s with err := true, errcode := e.code, errinfo := encode i } := by
  rw [failCommand, raise_of_no_err h]

-- PMUL (R126)

theorem exec_pmul_of_empty {s : State} {pa pb : PReg} (h : s.poly pa = [] ∨ s.poly pb = []) (pd : PReg) :
    exec (.pmul pd pa pb) s = failCommand .oper (.pmul pd pa pb) s :=
  if_pos (by simpa using h)

section pmul
variable {s : State} {pa pb : PReg} (ha : s.poly pa ≠ []) (hb : s.poly pb ≠ []) (pd : PReg)
include ha hb

theorem exec_pmul_of_nonempty : exec (.pmul pd pa pb) s =
    if (s.poly pa).length + (s.poly pb).length - 1 > 256 then failCommand .len (.pmul pd pa pb) s
    else .next ((useTables s).setPoly pd (polyMul (useTables s).tables (s.poly pa) (s.poly pb))) :=
  if_neg (by simp [ha, hb])

theorem exec_pmul_of_fits (ht : s.TablesReady) (hlen : (s.poly pa).length + (s.poly pb).length - 1 ≤ 256) :
    exec (.pmul pd pa pb) s = .next ((useTables s).setPoly pd (refMul (s.poly pa) (s.poly pb))) := by
  rw [exec_pmul_of_nonempty ha hb, if_neg (Nat.not_lt.mpr hlen), (useTables_built ht).polyMul_eq]

end pmul

/-- Settles O32: over built tables the model's product is the table-free one. -/
theorem pmulIsTheConvolution : Obligations.PmulIsTheConvolution := fun s pd pa pb ht ha hb hlen => by
  rw [exec_pmul_of_fits ha hb pd ht hlen, setPoly_useTables]

/-- Settles O33, by the order of the two tests. -/
theorem pmulRefusesEmptyAndOverlong : Obligations.PmulRefusesEmptyAndOverlong := by
  refine fun s pd pa pb herr => ⟨fun hempty => ?_, fun ha hb hlen => ?_⟩
  · rw [exec_pmul_of_empty hempty, failCommand_of_no_err herr, ErrCode.code]
  · rw [exec_pmul_of_nonempty ha hb, if_pos hlen, failCommand_of_no_err herr, ErrCode.code]

/-- Settles O34, because 1 is a unit of the product on both sides. -/
theorem pmulByOneIsTheIdentity : Obligations.PmulByOneIsTheIdentity := by
  intro s pd pa pb ht ha hlen hone
  have hb : s.poly pb ≠ [] := by rw [hone]; exact List.cons_ne_nil 1 []
  refine ⟨⟨_, exec_pmul_of_fits ha hb pd ht (by simpa [hone] using hlen), ?_⟩,
    ⟨_, exec_pmul_of_fits hb ha pd ht (by simpa [hone] using hlen), ?_⟩⟩
  · rw [State.poly_setPoly_same, hone, refMul_one_right ha]
  · rw [State.poly_setPoly_same, hone, refMul_one_left]

-- GENP (R127)

theorem exec_genp_of_ready {s : State} (ht : s.TablesReady) (pd : PReg) (n : Byte) :
    exec (.genp pd n) s = .next ((useTables s).setPoly pd (refGen n.toNat)) := by
  rw [exec_genp, (useTables_built ht).genPoly_eq _ (Nat.le_of_lt_succ n.isLt)]

/-- Settles O35: over built tables the model's generator is the table-free one. -/
theorem genpIsTheProductOfFactors : Obligations.GenpIsTheProductOfFactors := fun s pd n ht => by
  rw [exec_genp_of_ready ht, setPoly_useTables]

/-- Settles O36, by the length, the leading coefficient and the roots of the table-free generator. -/
theorem generatorIsMonicWithItsRoots : Obligations.GeneratorIsMonicWithItsRoots := by
  refine fun s pd n ht => ⟨_, exec_genp_of_ready ht pd n, ?_⟩
  rw [State.poly_setPoly_same]
  exact ⟨length_refGen _, refGen_head? _, fun i hi => refEval_refGen hi⟩

-- RSDIV (R128)

/-- Settles O37, by the quotient that the division loop collects. -/
theorem rsdivIsTheRemainder : Obligations.RsdivIsTheRemainder := by
  intro s pd pg pm ht hlead
  refine ⟨rsDivide (useTables s).tables (s.poly pg) (s.poly pm), length_rsDivide .., ?_, fun hm => ?_, fun _ => ?_⟩
  · rw [exec_rsdiv_of_monic hlead, setPoly_useTables]
  · rw [hm, rsDivide_nil]
  · exact exists_refMul_eq_append_rsDivide (useTables_built ht) hlead _

/-- RSDIV on a message given as the content of its register, which is not the generator's (R128). -/
theorem exec_rsdiv_setPoly {s : State} {pg pm : PReg} (hlead : (s.poly pg).head? = some 1) (hne : pg ≠ pm) (pd : PReg)
    (m : Poly) : exec (.rsdiv pd pg pm) (s.setPoly pm m) =
      .next (((useTables s).setPoly pm m).setPoly pd (rsDivide (useTables s).tables (s.poly pg) m)) := by
  have hg : (s.setPoly pm m).poly pg = s.poly pg := State.poly_setPoly_other s m hne
  rw [exec_rsdiv_of_monic (by rwa [hg]), hg, State.poly_setPoly_same, useTables_setPoly]
  rfl

/-- Settles O38: each step of the division is linear. -/
theorem rsdivIsLinearInTheMessage : Obligations.RsdivIsLinearInTheMessage := by
  intro s pd pg pm m m' ht hlead hne hlen
  refine ⟨_, _, _, exec_rsdiv_setPoly hlead hne pd m, exec_rsdiv_setPoly hlead hne pd m',
    exec_rsdiv_setPoly hlead hne pd _, ?_⟩
  simp only [State.poly_setPoly_same]
  exact rsDivide_xor (useTables_built ht) _ hlen

theorem exec_rsdiv_of_not_monic {s : State} {pg : PReg} (hlead : (s.poly pg).head? ≠ some 1) (pd pm : PReg) :
    exec (.rsdiv pd pg pm) s = failCommand .oper (.rsdiv pd pg pm) s := by
  rw [exec, execRsdiv]
  cases hg : (s.poly pg).head? with
  | none => simp
  | some c => exact if_pos fun hc => hlead (hg.trans (congrArg some hc))

/-- Settles O39: both refusals of R128 are E_OPER. -/
theorem rsdivRefusesNonMonicGenerator : Obligations.RsdivRefusesNonMonicGenerator := fun s pd pg pm herr hlead => by
  rw [exec_rsdiv_of_not_monic hlead, failCommand_of_no_err herr, ErrCode.code]

/-- Settles O40: RSDIV's message and remainder are 0 wherever the generator is, whatever the message. -/
theorem encodedBlockHasTheGeneratorsRoots : Obligations.EncodedBlockHasTheGeneratorsRoots := by
  intro s pd pg pm n ht
  have hgen : ((useTables s).setPoly pg (refGen n.toNat)).poly pg = refGen n.toNat := State.poly_setPoly_same ..
  refine ⟨_, _, exec_genp_of_ready ht pg n, exec_rsdiv_of_monic (by rw [hgen, refGen_head?]) pd pm,
    fun hne => ?_, ?_, fun i hi => ?_⟩
  · rw [State.poly_setPoly_other _ _ hne.symm, useTables_poly]
  · rw [State.poly_setPoly_same, length_rsDivide, hgen, length_refGen, Nat.add_sub_cancel]
  · rw [State.poly_setPoly_same, hgen]
    refine refEval_append_rsDivide ?_ (refGen_head? _) (refEval_refGen hi) _
    rw [useTables_setPoly, useTables_useTables]
    exact useTables_built ht

-- CWLD (R129) and the three commands that empty a sequence (R125, R148, R150)

/-- Settles O41, by the one test of the range. -/
theorem cwldCopiesWholeCodewords : Obligations.CwldCopiesWholeCodewords := by
  refine fun s pd off len => ⟨fun hlen => ?_, fun hlen herr => ?_⟩ <;> rw [exec, execCwld]
  · rw [if_neg (Nat.not_lt.mpr hlen)]
    simp only [codeword_eq]
    rfl
  · rw [if_pos hlen, failCommand_of_no_err herr, ErrCode.code]

/-- Settles O31: each of the three is one write of an empty sequence. -/
theorem clearsEmptyOneSequence : Obligations.ClearsEmptyOneSequence :=
  ⟨fun s pd => ⟨s.setPoly pd [], rfl, State.poly_setPoly_same .., fun _ hk => State.poly_setPoly_other s [] hk, rfl⟩,
    fun s => ⟨{ s with str := [] }, rfl, rfl, rfl⟩, fun s => ⟨{ s with bits := [] }, rfl, rfl, rfl⟩⟩

end Sys2Proof.Machine
end

section
/-! PROOFS. The Mode Selector & Bit Packer (spec/43_bit_packer.md R140 to R157): the numbers that slices of a stream denote, the
groups of the two payloads, the pad bytes, and the commands with their errors. -/

namespace Sys2Proof.Machine

-- Slices of a stream as numbers (R6)

theorem bitsNumber_append_right (b c : BitSeq) (n k : Nat) :
    bitsNumber (b ++ c) (b.length + n) k = bitsNumber c n k := by
  rw [bitsNumber, List.drop_length_add_append, bitsNumber]

/-- A slice is the opening slice of what follows its first bit. -/
theorem bitsNumber_drop (b : BitSeq) (n k : Nat) : bitsNumber b n k = bitsNumber (b.drop n) 0 k := rfl

/-- A number written at the front of a stream reads back when it fits its field (R6). -/
theorem bitsNumber_bitsOf_append {v k : Nat} (h : v < 2 ^ k) (c : BitSeq) : bitsNumber (bitsOf v k ++ c) 0 k = v := by
  rw [bitsNumber, List.drop_zero, List.take_left' (length_bitsOf v k), numberOf_bitsOf, Nat.mod_eq_of_lt h]

theorem bitsNumber_bitsOf {v k : Nat} (h : v < 2 ^ k) : bitsNumber (bitsOf v k) 0 k = v := by
  simpa using bitsNumber_bitsOf_append h []

-- Classification (R141)

theorem classify_eq_numeric_iff (s : List Byte) : classify s = .numeric ↔ ∀ c ∈ s, c ∈ digits := by
  rw [← all_isDigit_iff, classify]
  split_ifs with hd <;> simp [hd]

theorem classify_eq_byte_iff (s : List Byte) : classify s = .byte ↔ ¬ ∀ c ∈ s, c ∈ alphabet := by
  have hsub : s.all isDigit = true → s.all isAln = true := fun h =>
    (all_isAln_iff s).mpr fun c hc => mem_alphabet_of_mem_digits ((all_isDigit_iff s).mp h c hc)
  rw [← all_isAln_iff, classify]
  split_ifs with hd ha
  · simp [hsub hd]
  · simp [ha]
  · simp [ha]

/-- A string is Alphanumeric when it is in neither of the other two classes. -/
theorem classify_eq_alphanumeric_iff (s : List Byte) :
    classify s = .alphanumeric ↔ (¬ ∀ c ∈ s, c ∈ digits) ∧ ∀ c ∈ s, c ∈ alphabet := by
  rw [← classify_eq_numeric_iff, ← not_not (a := ∀ c ∈ s, c ∈ alphabet), ← classify_eq_byte_iff]
  have hk := classify_ne_kanji s
  cases hm : classify s <;> simp_all

/-- Settles O42. -/
theorem mselClassifiesTheString : Obligations.MselClassifiesTheString := fun s =>
  ⟨classify s.str, rfl, classify_eq_numeric_iff _, classify_eq_alphanumeric_iff _, classify_eq_byte_iff _⟩

-- Mode indicators and the header (R144)

/-- The two modes the block packs have an indicator (R144). -/
theorem Mode.indicator_of_packed {m : Mode} (h : m = .numeric ∨ m = .alphanumeric) :
    m.indicator = some (if m = .numeric then Config.modeIndNumeric else Config.modeIndAlphanumeric) := by
  rcases h with rfl | rfl <;> rfl

theorem Mode.indicator_of_unpacked {m : Mode} (h : m = .byte ∨ m = .kanji) : m.indicator = none := by
  rcases h with rfl | rfl <;> rfl

theorem classify_packed {s : List Byte} (h : ∀ c ∈ s, c ∈ alphabet) :
    classify s = .numeric ∨ classify s = .alphanumeric := by
  rw [classify_eq_numeric_iff, classify_eq_alphanumeric_iff]
  exact (em _).imp_right (⟨·, h⟩)

theorem bitsNumber_header_indicator (ind : BitVec 4) (c n : Nat) (b : BitSeq) :
    bitsNumber (header ind c n ++ b) 0 4 = ind.toNat := by
  rw [header, List.append_assoc]
  exact bitsNumber_bitsOf_append ind.isLt _

theorem bitsNumber_header_count (ind : BitVec 4) {c n : Nat} (h : n < 2 ^ c) (b : BitSeq) :
    bitsNumber (header ind c n ++ b) 4 c = n := by
  have hskip := bitsNumber_append_right (bitsOf ind.toNat Config.modeBits) (bitsOf n c ++ b) 0 c
  rw [length_bitsOf] at hskip
  rw [header, List.append_assoc]
  exact hskip.trans (bitsNumber_bitsOf_append h b)

-- PKHDR (R151)

theorem exec_pkhdr_of_unpacked {s : State} (h : s.mode.indicator = none) :
    exec .pkhdr s = failCommand .mode .pkhdr s := by
  rw [exec, execPkhdr, h]

theorem exec_pkhdr_of_packed {s : State} {ind : BitVec 4} (h : s.mode.indicator = some ind) :
    exec .pkhdr s =
      if 2 ^ s.ccb.toNat ≤ s.str.length then failCommand .cnt .pkhdr s
      else if 32768 < s.bits.length + 4 + s.ccb.toNat then failCommand .len .pkhdr s
      else .next { s with bits := s.bits ++ header ind s.ccb.toNat s.str.length } := by
  rw [exec, execPkhdr, h]
  rfl

/-- Settles O43, by the two fields of the header. -/
theorem pkhdrAppendsIndicatorAndCount : Obligations.PkhdrAppendsIndicatorAndCount := by
  intro s hmode hcount hroom
  have hexec := exec_pkhdr_of_packed (Mode.indicator_of_packed hmode)
  rw [if_neg (Nat.not_le.mpr hcount), if_neg (Nat.not_lt.mpr hroom)] at hexec
  refine ⟨_, hexec, length_header .., ?_, ?_⟩
  · simpa using bitsNumber_header_indicator _ s.ccb.toNat s.str.length []
  · simpa using bitsNumber_header_count _ hcount []

/-- Settles O44, by the order of the three tests. -/
theorem pkhdrRefusalsInOrder : Obligations.PkhdrRefusalsInOrder := by
  refine fun s herr => ⟨fun hmode => ?_, fun hmode hcount => ?_, fun hmode hcount hroom => ?_⟩
  · exact (exec_pkhdr_of_unpacked (Mode.indicator_of_unpacked hmode)).trans (failCommand_of_no_err herr ..)
  · rw [exec_pkhdr_of_packed (Mode.indicator_of_packed hmode), if_pos hcount]
    exact failCommand_of_no_err herr ..
  · rw [exec_pkhdr_of_packed (Mode.indicator_of_packed hmode), if_neg (Nat.not_le.mpr hcount), if_pos hroom]
    exact failCommand_of_no_err herr ..

-- The groups of the payloads (R142, R143)

theorem drop_eq_getD_cons {s : List Byte} {i : Nat} (h : i < s.length) : s.drop i = s.getD i 0 :: s.drop (i + 1) := by
  rw [List.drop_eq_getElem_cons h, List.getD_eq_getElem _ _ h]

theorem getD_mem {s : List Byte} {i : Nat} (h : i < s.length) : s.getD i 0 ∈ s := by
  rw [List.getD_eq_getElem _ _ h]
  exact List.getElem_mem h

/-- Whole groups skipped in the payload are whole groups skipped in the string. -/
theorem drop_packNumeric {s : List Byte} {j : Nat} (h : 3 * j ≤ s.length) :
    (packNumeric s).drop (10 * j) = packNumeric (s.drop (3 * j)) := by
  induction s using packNumeric.induct generalizing j with
  | case1 a b c rest ih =>
    cases j with
    | zero => rfl
    | succ j =>
      rw [packNumeric, Nat.mul_succ, Nat.add_comm, ← List.drop_drop, List.drop_left' (length_bitsOf ..),
        ih (by simp only [List.length_cons] at h; omega)]
      rfl
  | case2 | case3 | case4 =>
    obtain rfl : j = 0 := by simp only [List.length_cons, List.length_nil] at h; omega
    rfl

theorem drop_packAlnum {s : List Byte} {j : Nat} (h : 2 * j ≤ s.length) :
    (packAlnum s).drop (11 * j) = packAlnum (s.drop (2 * j)) := by
  induction s using packAlnum.induct generalizing j with
  | case1 a b rest ih =>
    cases j with
    | zero => rfl
    | succ j =>
      rw [packAlnum, Nat.mul_succ, Nat.add_comm, ← List.drop_drop, List.drop_left' (length_bitsOf ..),
        ih (by simp only [List.length_cons] at h; omega)]
      rfl
  | case2 | case3 =>
    obtain rfl : j = 0 := by simp only [List.length_cons, List.length_nil] at h; omega
    rfl

theorem digit_lt {c : Byte} (h : c ∈ digits) : digit c < 10 := by
  rw [digit_eq_idxOf c h]
  exact List.idxOf_lt_length_of_mem h

theorem aln_lt {c : Byte} (h : c ∈ alphabet) : aln c < 45 := by
  rw [aln_eq_idxOf c h]
  exact List.idxOf_lt_length_of_mem h

section numeric
variable {s : List Byte} (hs : ∀ c ∈ s, c ∈ digits)
include hs

/-- A character of a string of digits, as the model and as R140 number it. -/
theorem digit_getD {i : Nat} (h : i < s.length) :
    digit (s.getD i 0) = digits.idxOf (s.getD i 0) ∧ digit (s.getD i 0) < 10 :=
  have hmem := hs _ (getD_mem h)
  ⟨digit_eq_idxOf _ hmem, digit_lt hmem⟩

theorem bitsNumber_packNumeric_group {j : Nat} (h : 3 * j + 2 < s.length) :
    bitsNumber (packNumeric s) (10 * j) 10 = 100 * digits.idxOf (s.getD (3 * j) 0) +
      10 * digits.idxOf (s.getD (3 * j + 1) 0) + digits.idxOf (s.getD (3 * j + 2) 0) := by
  obtain ⟨ha, ha10⟩ := digit_getD hs (i := 3 * j) (by omega)
  obtain ⟨hb, hb10⟩ := digit_getD hs (i := 3 * j + 1) (by omega)
  obtain ⟨hc, hc10⟩ := digit_getD hs h
  rw [bitsNumber_drop, drop_packNumeric (by omega), drop_eq_getD_cons (by omega), drop_eq_getD_cons (by omega),
    drop_eq_getD_cons h, packNumeric, bitsNumber_bitsOf_append (by omega), ha, hb, hc]

theorem bitsNumber_packNumeric_two {j : Nat} (h : s.length = 3 * j + 2) :
    bitsNumber (packNumeric s) (10 * j) 7 =
      10 * digits.idxOf (s.getD (3 * j) 0) + digits.idxOf (s.getD (3 * j + 1) 0) := by
  obtain ⟨ha, ha10⟩ := digit_getD hs (i := 3 * j) (by omega)
  obtain ⟨hb, hb10⟩ := digit_getD hs (i := 3 * j + 1) (by omega)
  rw [bitsNumber_drop, drop_packNumeric (by omega), drop_eq_getD_cons (by omega), drop_eq_getD_cons (by omega),
    List.drop_of_length_le h.le, packNumeric, bitsNumber_bitsOf (by omega), ha, hb]

theorem bitsNumber_packNumeric_one {j : Nat} (h : s.length = 3 * j + 1) :
    bitsNumber (packNumeric s) (10 * j) 4 = digits.idxOf (s.getD (3 * j) 0) := by
  obtain ⟨ha, ha10⟩ := digit_getD hs (i := 3 * j) (by omega)
  rw [bitsNumber_drop, drop_packNumeric (by omega), drop_eq_getD_cons (by omega), List.drop_of_length_le h.le,
    packNumeric, bitsNumber_bitsOf (by omega), ha]

end numeric

section alphanumeric
variable {s : List Byte} (hs : ∀ c ∈ s, c ∈ alphabet)
include hs

/-- A character of a string of the alphabet, as the model and as R140 number it. -/
theorem aln_getD {i : Nat} (h : i < s.length) :
    aln (s.getD i 0) = alphabet.idxOf (s.getD i 0) ∧ aln (s.getD i 0) < 45 :=
  have hmem := hs _ (getD_mem h)
  ⟨aln_eq_idxOf _ hmem, aln_lt hmem⟩

theorem bitsNumber_packAlnum_pair {j : Nat} (h : 2 * j + 1 < s.length) :
    bitsNumber (packAlnum s) (11 * j) 11 =
      45 * alphabet.idxOf (s.getD (2 * j) 0) + alphabet.idxOf (s.getD (2 * j + 1) 0) := by
  obtain ⟨ha, ha45⟩ := aln_getD hs (i := 2 * j) (by omega)
  obtain ⟨hb, hb45⟩ := aln_getD hs h
  rw [bitsNumber_drop, drop_packAlnum (by omega), drop_eq_getD_cons (by omega), drop_eq_getD_cons h, packAlnum,
    bitsNumber_bitsOf_append (by omega), ha, hb]

theorem bitsNumber_packAlnum_one {j : Nat} (h : s.length = 2 * j + 1) :
    bitsNumber (packAlnum s) (11 * j) 6 = alphabet.idxOf (s.getD (2 * j) 0) := by
  obtain ⟨ha, ha45⟩ := aln_getD hs (i := 2 * j) (by omega)
  rw [bitsNumber_drop, drop_packAlnum (by omega), drop_eq_getD_cons (by omega), List.drop_of_length_le h.le, packAlnum,
    bitsNumber_bitsOf (by omega), ha]

end alphanumeric

-- PKNUM and PKALN (R152, R153)

theorem exec_pknum_of_not_digits {s : State} (h : ¬ ∀ c ∈ s.str, c ∈ digits) :
    exec .pknum s = failCommand .char .pknum s :=
  if_pos (by rwa [all_isDigit_iff])

theorem exec_pknum_of_digits {s : State} (h : ∀ c ∈ s.str, c ∈ digits) :
    exec .pknum s =
      if 32768 < s.bits.length + numericLength s.str.length then failCommand .len .pknum s
      else .next { s with bits := s.bits ++ packNumeric s.str } :=
  if_neg (by rwa [all_isDigit_iff, not_not])

theorem exec_pkaln_of_not_alphabet {s : State} (h : ¬ ∀ c ∈ s.str, c ∈ alphabet) :
    exec .pkaln s = failCommand .char .pkaln s :=
  if_pos (by rwa [all_isAln_iff])

theorem exec_pkaln_of_alphabet {s : State} (h : ∀ c ∈ s.str, c ∈ alphabet) :
    exec .pkaln s =
      if 32768 < s.bits.length + alnumLength s.str.length then failCommand .len .pkaln s
      else .next { s with bits := s.bits ++ packAlnum s.str } :=
  if_neg (by rwa [all_isAln_iff, not_not])

/-- Settles O45, by the forms of a group. -/
theorem pknumAppendsDecimalGroups : Obligations.PknumAppendsDecimalGroups := by
  intro s hs hroom
  refine ⟨packNumeric s.str, ?_, length_packNumeric _, fun j hj => ?_, fun h => ?_, fun h => ?_⟩
  · rw [exec_pknum_of_digits hs, if_neg (Nat.not_lt.mpr hroom)]
  · exact bitsNumber_packNumeric_group hs (by omega)
  · rw [bitsNumber_packNumeric_two hs (by omega), show s.str.length - 2 = 3 * (s.str.length / 3) by omega,
      show s.str.length - 1 = 3 * (s.str.length / 3) + 1 by omega]
  · rw [bitsNumber_packNumeric_one hs (by omega), show s.str.length - 1 = 3 * (s.str.length / 3) by omega]

/-- Settles O46, by the forms of a group. -/
theorem pkalnAppendsPairs : Obligations.PkalnAppendsPairs := by
  intro s hs hroom
  refine ⟨packAlnum s.str, ?_, length_packAlnum _, fun j hj => ?_, fun h => ?_⟩
  · rw [exec_pkaln_of_alphabet hs, if_neg (Nat.not_lt.mpr hroom)]
  · exact bitsNumber_packAlnum_pair hs (by omega)
  · rw [bitsNumber_packAlnum_one hs (by omega), show s.str.length - 1 = 2 * (s.str.length / 2) by omega]

/-- Settles O47, by the order of the two tests. -/
theorem payloadPackersRefuse : Obligations.PayloadPackersRefuse := by
  refine fun s herr => ⟨fun hs => ?_, fun hs hroom => ?_, fun hs => ?_, fun hs hroom => ?_⟩
  · exact (exec_pknum_of_not_digits hs).trans (failCommand_of_no_err herr ..)
  · rw [exec_pknum_of_digits hs, if_pos hroom]
    exact failCommand_of_no_err herr ..
  · exact (exec_pkaln_of_not_alphabet hs).trans (failCommand_of_no_err herr ..)
  · rw [exec_pkaln_of_alphabet hs, if_pos hroom]
    exact failCommand_of_no_err herr ..

-- The terminator (R145, R154)

theorem exec_pktrm (s : State) : exec .pktrm s =
    if 8 * s.dcw.toNat < s.bits.length then failCommand .cap .pktrm s
    else .next { s with bits := terminate s.bits s.dcw.toNat } := rfl

/-- Settles O48. -/
theorem pktrmAppendsBoundedZeros : Obligations.PktrmAppendsBoundedZeros := by
  refine fun s => ⟨fun hfit => ⟨{ s with bits := terminate s.bits s.dcw.toNat }, ?_, ?_, ?_, ?_⟩, fun hfull herr => ?_⟩
  · rw [exec_pktrm, if_neg (Nat.not_lt.mpr hfit)]
  · simp [terminate, zeroBits]
  · simp only [terminate, List.length_append, length_zeroBits, Config.termMax]
    omega
  · simp only [terminate, List.length_append, length_zeroBits, Config.termMax]
    omega
  · rw [exec_pktrm, if_pos hfull]
    exact failCommand_of_no_err herr ..

-- Padding (R146, R155)

theorem exec_pkpad (s : State) : exec .pkpad s =
    if 8 * s.dcw.toNat < s.bits.length then failCommand .cap .pkpad s
    else .next { s with bits := padTo s.bits s.dcw.toNat } := rfl

theorem length_alignToByte_eq (b : BitSeq) : (alignToByte b).length = 8 * ((b.length + 7) / 8) := by
  simp only [alignToByte, List.length_append, length_zeroBits]
  omega

theorem drop_padBytes (k n j : Nat) : (padBytes k n).drop (8 * j) = padBytes (k + j) (n - j) := by
  induction j generalizing k n with
  | zero => rfl
  | succ j ih =>
    cases n with
    | zero => simp [padBytes]
    | succ n =>
      rw [padBytes, Nat.mul_succ, Nat.add_comm (8 * j), ← List.drop_drop, List.drop_left' (length_bitsOf ..), ih,
        Nat.succ_sub_succ, Nat.add_right_comm, Nat.add_assoc]

/-- The pad bytes are 236 and 17 in turn (R146). -/
theorem bitsNumber_padBytes {n j : Nat} (h : j < n) :
    bitsNumber (padBytes 0 n) (8 * j) 8 = if j % 2 = 0 then 236 else 17 := by
  obtain ⟨m, hm⟩ := Nat.exists_eq_add_of_lt h
  rw [bitsNumber_drop, drop_padBytes, show n - j = m + 1 by omega, padBytes, Nat.zero_add,
    bitsNumber_bitsOf_append (BitVec.isLt _), apply_ite BitVec.toNat]
  rfl

theorem prefix_terminate (b : BitSeq) (d : Nat) : b <+: terminate b d := List.prefix_append ..

theorem prefix_padTo (b : BitSeq) (d : Nat) : b <+: padTo b d :=
  (List.prefix_append ..).trans (List.prefix_append ..)

/-- The bits up to the byte boundary are 0 (R146). -/
theorem padTo_getD_of_lt_boundary {b : BitSeq} {n : Nat} (d : Nat) (hb : b.length ≤ n) (h : n < 8 * ((b.length + 7) / 8)) :
    (padTo b d).getD n true = false := by
  rw [← length_alignToByte_eq] at h
  rw [padTo, List.getD_append _ _ _ _ h, alignToByte, List.getD_append_right _ _ _ _ hb, zeroBits, List.getD_replicate]
  simp only [alignToByte, List.length_append, length_zeroBits] at h
  omega

/-- The codewords behind the byte boundary are the pad bytes (R146). -/
theorem codewordSum_padTo {b : BitSeq} {d k : Nat} (h : (b.length + 7) / 8 + k < d) :
    codewordSum (padTo b d) ((b.length + 7) / 8 + k) = if k % 2 = 0 then 236 else 17 := by
  rw [codewordSum_eq_slice _ _ (by rw [length_padTo _ _ (by omega)]; omega), Nat.mul_add, ← length_alignToByte_eq, padTo,
    bitsNumber_append_right, bitsNumber_padBytes (by rw [length_alignToByte_eq]; omega)]

/-- Settles O49, by the three parts of the padded stream. -/
theorem pkpadFillsToCapacity : Obligations.PkpadFillsToCapacity := by
  refine fun s => ⟨fun hfit => ⟨padTo s.bits s.dcw.toNat, ?_, length_padTo _ _ hfit, ?_, ?_, ?_⟩, fun hfull herr => ?_⟩
  · rw [exec_pkpad, if_neg (Nat.not_lt.mpr hfit)]
  · exact (List.prefix_iff_eq_take.mp (prefix_padTo ..)).symm
  · exact fun n => padTo_getD_of_lt_boundary _
  · exact fun k => codewordSum_padTo
  · rw [exec_pkpad, if_pos hfull]
    exact failCommand_of_no_err herr ..

-- PACK (R156)

theorem exec_pack_of_unpacked {s : State} (h : (classify s.str).indicator = none) :
    exec .pack s = failCommand .mode .pack s := by
  rw [exec, execPack, h]

theorem exec_pack_of_packed {s : State} {ind : BitVec 4} (h : (classify s.str).indicator = some ind) :
    exec .pack s =
      if 2 ^ s.ccb.toNat ≤ s.str.length then failCommand .cnt .pack s
      else if 8 * s.dcw.toNat < (header ind s.ccb.toNat s.str.length ++ payload (classify s.str) s.str).length then
        failCommand .cap .pack s
      else .next { s with
        mode := classify s.str
        bits := padTo (terminate (header ind s.ccb.toNat s.str.length ++ payload (classify s.str) s.str) s.dcw.toNat)
          s.dcw.toNat } := by
  rw [exec, execPack, h]
  rfl

theorem exec_pack_of_fits {s : State} {ind : BitVec 4} (h : (classify s.str).indicator = some ind)
    (hcount : s.str.length < 2 ^ s.ccb.toNat)
    (hfit : (header ind s.ccb.toNat s.str.length ++ payload (classify s.str) s.str).length ≤ 8 * s.dcw.toNat) :
    exec .pack s = .next { s with
      mode := classify s.str
      bits := padTo (terminate (header ind s.ccb.toNat s.str.length ++ payload (classify s.str) s.str) s.dcw.toNat)
        s.dcw.toNat } := by
  rw [exec_pack_of_packed h, if_neg (Nat.not_le.mpr hcount), if_neg (Nat.not_lt.mpr hfit)]

/-- What a stream that opens with a header and a payload holds, field by field (R144). -/
theorem fields_of_prefix {ind : BitVec 4} {c n : Nat} {p b : BitSeq} (h : header ind c n ++ p <+: b) (hn : n < 2 ^ c) :
    bitsNumber b 0 4 = ind.toNat ∧ bitsNumber b 4 c = n ∧ (b.drop (4 + c)).take p.length = p := by
  obtain ⟨rest, rfl⟩ := h
  rw [List.append_assoc]
  refine ⟨bitsNumber_header_indicator .., bitsNumber_header_count _ hn _, ?_⟩
  rw [List.drop_left' (length_header ..), List.take_left]

/-- Settles O50: the terminator and the padding stand behind the header and the payload. -/
theorem packWritesTheWholeStream : Obligations.PackWritesTheWholeStream := by
  intro s hs hcount hfit
  rw [← length_header _ s.ccb.toNat s.str.length, ← List.length_append] at hfit
  exact ⟨_, exec_pack_of_fits (Mode.indicator_of_packed (classify_packed hs)) hcount hfit,
    length_padTo _ _ (length_terminate _ _ hfit).2,
    fields_of_prefix ((prefix_terminate ..).trans (prefix_padTo ..)) hcount⟩

/-- Settles O51, by the order of the three tests. -/
theorem packRefusalsInOrder : Obligations.PackRefusalsInOrder := by
  refine fun s herr => ⟨fun hs => ?_, fun hs hcount => ?_, fun hs hcount hfull => ?_⟩
  · have hbyte := (classify_eq_byte_iff s.str).mpr hs
    exact (exec_pack_of_unpacked (Mode.indicator_of_unpacked (.inl hbyte))).trans (failCommand_of_no_err herr ..)
  · rw [exec_pack_of_packed (Mode.indicator_of_packed (classify_packed hs)), if_pos hcount]
    exact failCommand_of_no_err herr ..
  · rw [exec_pack_of_packed (Mode.indicator_of_packed (classify_packed hs)), if_neg (Nat.not_le.mpr hcount),
      if_pos (by rwa [List.length_append, length_header])]
    exact failCommand_of_no_err herr ..

-- The step commands that end without an error (R157)

theorem err_of_failCommand {e : ErrCode} {i : Instr} {s t : State} (h : failCommand e i s = .next t) : t.err = true := by
  cases h
  exact raise_err ..

/-- A command that leaves no error pending went past each of its tests. -/
theorem not_of_ite_failCommand {c : Prop} [Decidable c] {e : ErrCode} {i : Instr} {s t : State} {r : Result}
    (h : (if c then failCommand e i s else r) = .next t) (ht : t.err = false) : ¬ c ∧ r = .next t := by
  split at h
  · exact absurd ht (by simp [err_of_failCommand h])
  · next hc => exact ⟨hc, h⟩

theorem eq_of_exec_pkhdr {s t : State} (h : exec .pkhdr s = .next t) (ht : t.err = false) :
    ∃ ind, s.mode.indicator = some ind ∧ s.str.length < 2 ^ s.ccb.toNat ∧
      t = { s with bits := s.bits ++ header ind s.ccb.toNat s.str.length } := by
  cases hind : s.mode.indicator with
  | none =>
    rw [exec_pkhdr_of_unpacked hind] at h
    exact absurd ht (by simp [err_of_failCommand h])
  | some ind =>
    rw [exec_pkhdr_of_packed hind] at h
    obtain ⟨hcount, h⟩ := not_of_ite_failCommand h ht
    obtain ⟨-, h⟩ := not_of_ite_failCommand h ht
    cases h
    exact ⟨ind, rfl, Nat.not_le.mp hcount, rfl⟩

/-- PKNUM in the mode Numeric and PKALN in the others append the payload of PACK. -/
theorem eq_of_exec_payload {s t : State} (h : exec (if s.mode = .numeric then .pknum else .pkaln) s = .next t)
    (ht : t.err = false) : t = { s with bits := s.bits ++ payload s.mode s.str } := by
  rw [payload]
  split at h <;> next hm =>
    obtain ⟨-, h⟩ := not_of_ite_failCommand h ht
    obtain ⟨-, h⟩ := not_of_ite_failCommand h ht
    cases h
    simp [hm]

theorem eq_of_exec_pktrm {s t : State} (h : exec .pktrm s = .next t) (ht : t.err = false) :
    s.bits.length ≤ 8 * s.dcw.toNat ∧ t = { s with bits := terminate s.bits s.dcw.toNat } := by
  rw [exec_pktrm] at h
  obtain ⟨hfit, h⟩ := not_of_ite_failCommand h ht
  cases h
  exact ⟨Nat.not_lt.mp hfit, rfl⟩

theorem eq_of_exec_pkpad {s t : State} (h : exec .pkpad s = .next t) (ht : t.err = false) :
    t = { s with bits := padTo s.bits s.dcw.toNat } := by
  rw [exec_pkpad] at h
  obtain ⟨-, h⟩ := not_of_ite_failCommand h ht
  cases h
  rfl

theorem exists_of_packStep {r : Result} {i : State → Instr} {t : State} (h : packStep r i = .next t) :
    ∃ s, r = .next s ∧ exec (i s) s = .next t := by
  cases r with
  | next s => exact ⟨s, rfl, h⟩
  | fault e => cases e
  | refused e => cases h

/-- Settles O52, from the last step back to the first: each step that leaves no error passed PACK's test of the same kind,
and together they built PACK's stream. -/
theorem packEqualsTheStepCommands : Obligations.PackEqualsTheStepCommands := by
  intro s t _ hsteps ht
  obtain ⟨s₄, hto₄, hpad⟩ := exists_of_packStep hsteps
  obtain rfl := eq_of_exec_pkpad hpad ht
  obtain ⟨s₃, hto₃, hterm⟩ := exists_of_packStep hto₄
  obtain ⟨hfit, rfl⟩ := eq_of_exec_pktrm hterm ht
  obtain ⟨s₂, hto₂, hpayload⟩ := exists_of_packStep hto₃
  obtain rfl := eq_of_exec_payload hpayload ht
  obtain ⟨ind, hind, hcount, rfl⟩ := eq_of_exec_pkhdr (s := { s with mode := classify s.str, bits := [] }) hto₂ ht
  exact exec_pack_of_fits hind hcount hfit

end Sys2Proof.Machine
end

section
/-! PROOFS. ECLR (spec/44_system.md R170): what it leaves, and the states it leaves alone. -/

namespace Sys2Proof.Machine

theorem exec_eclr (s : State) : exec .eclr s = .next (clearError s) := rfl

/-- Without an error pending, error items in agreement are already clear (R31 to R33). -/
theorem clearError_of_no_err {s : State} (h : s.ErrorConsistent) (herr : s.err = false) : clearError s = s := by
  obtain ⟨hcode, hinfo⟩ := h.none_pending herr
  rw [clearError, ← herr, ← hcode, ← hinfo]

/-- Settles O54: ECLR clears the error items, and where they are clear already that changes nothing. -/
theorem eclrClearsTheErrorItems : Obligations.EclrClearsTheErrorItems := by
  refine ⟨fun s => ⟨clearError s, exec_eclr s, clearError_err s, clearError_errcode s, clearError_errinfo s, rfl⟩,
    fun s h herr => ?_⟩
  rw [exec_eclr, clearError_of_no_err h herr]

end Sys2Proof.Machine
end

section
/-! PROOFS. Errors (spec/60_exceptions.md R181 to R186): what raises one, what it records, and what a block with a pending error
still does. -/

namespace Sys2Proof.Machine

/-- Settles O53, by the two cases of `raise` and the list of the codes. -/
theorem raiseKeepsTheFirstError : Obligations.RaiseKeepsTheFirstError :=
  ⟨fun _ _ _ => ⟨raise_of_err, raise_of_no_err⟩, rfl⟩

-- While an error is pending

/-- With an error pending only the exact ECLR word to CMD has an effect (R53 step 1). -/
theorem cellWrite_of_err {s : State} (h : s.err = true) (a : Addr) (v : Word) :
    cellWrite a v s = if a = 0 ∧ v = 0x02000000 then exec .eclr s else .next s := by
  simp [cellWrite, h, isAcknowledge]

/-- Settles O6: a write is ECLR's or ignored, and a read that finds no content adds no second error. -/
theorem frozenBlockOnlyAcknowledges : Obligations.FrozenBlockOnlyAcknowledges := by
  intro s a v h
  refine ⟨fun hack => ?_, fun hack => ?_, fun c r hc hr => ?_, fun hw => ?_⟩
  · rw [cellWrite_of_err h, if_pos hack]
    exact ⟨rfl, exec_eclr s⟩
  · rw [cellWrite_of_err h, if_neg hack]
  · exact cellRead_of_readable ((readable_of_cellOf hc s).trans hr)
  · rw [cellRead_of_not_readable (readable_eq_none hw s), accessError_of_err a h]

-- What raises the first error

/-- The errors a write raises when none is pending, each with its cause and its detail (R53 to R56, R87, R182, R183). -/
inductive WriteRaises (a : Addr) (v : Word) (s : State) : ErrCode → Word → Prop where
  | illegal (ha : a = 0) (hd : decode v = none) : WriteRaises a v s .ill v
  | failed (i e) (ha : a = 0) (hd : decode v = some i) (he : Raises i e) : WriteRaises a v s e v
  | refused (hc : ∀ c, cellOf a = some c → c.writable = false) : WriteRaises a v s .acc (a.setWidth 32)
  | strFull (ha : a = Cell.spush.addr) (hf : s.str.length = Config.smax) : WriteRaises a v s .full (a.setWidth 32)
  | polyFull (k) (ha : a = (Cell.ppush k).addr) (hf : (s.poly k).length = Config.pmax) :
      WriteRaises a v s .full (a.setWidth 32)

/-- A command that succeeds leaves no error where none was pending. -/
theorem Effect.err_of_no_err {i : Instr} {s t : State} (he : Effect s i t) (h : s.err = false) : t.err = false := by
  by_cases hi : i = .eclr
  · subst hi
    cases he
    exact clearError_err s
  · exact (he.error_eq hi).1.trans h

/-- A write that leaves the first error did nothing but raise it, for one of the causes listed. -/
theorem exists_raise_of_cellWrite {a : Addr} {v : Word} {s t : State} (hw : cellWrite a v s = .next t) (h : s.err = false)
    (ht : t.err = true) : ∃ e info, t = raise e info s ∧ WriteRaises a v s e info := by
  obtain ⟨u, hu, he⟩ := cellWrite_cases a v s
  obtain rfl : t = u := by simpa [hw] using hu
  cases he with
  | illegal _ ha hd => exact ⟨_, _, rfl, .illegal (addr_eq_of_cellOf ha).symm hd⟩
  | failed i e _ ha hd he =>
    rw [encode_of_decode hd]
    exact ⟨_, _, rfl, .failed i e (addr_eq_of_cellOf ha).symm hd he⟩
  | refused _ hc => exact ⟨_, _, rfl, .refused hc⟩
  | strFull _ ha hf => exact ⟨_, _, rfl, .strFull (addr_eq_of_cellOf ha).symm hf⟩
  | polyFull k _ ha hf => exact ⟨_, _, rfl, .polyFull k (addr_eq_of_cellOf ha).symm hf⟩
  | command i _ _ _ _ he => simp [he.err_of_no_err h] at ht
  | acknowledged herr | ignored herr => exact nomatch h.symm.trans herr
  | ccb | dcw | strPush | polyPush => exact nomatch h.symm.trans ht

/-- A read that leaves the first error did nothing but raise E_ACC, for an address with no content to return. -/
theorem raise_of_cellRead {a : Addr} {s t : State} (hr : (cellRead a s).2 = t) (h : s.err = false) (ht : t.err = true) :
    t = accessError a s ∧ ∀ c, cellOf a = some c → c.writeOnly = true := by
  cases hv : readable a s with
  | some v => simp [← hr, cellRead_of_readable hv, h] at ht
  | none =>
    refine ⟨by rw [← hr, cellRead_of_not_readable hv], fun c hc => ?_⟩
    rwa [readable_of_cellOf hc, cellContent_eq_none_iff] at hv

/-- The first error is recorded in the three error items and nowhere else (R186). -/
theorem raise_eq_of_no_err {e : ErrCode} {info : Word} {s t : State} (hr : t = raise e info s) (h : s.err = false) :
    t = { s with err := true, errcode := t.errcode, errinfo := t.errinfo } := by
  rw [hr, raise_of_no_err h]

/-- Settles O7: a write or a read that leaves an error is `raise`, and nothing else. -/
theorem errorChangesNothingElse : Obligations.ErrorChangesNothingElse := by
  rintro s t h ht (⟨a, v, hw⟩ | ⟨a, hr⟩)
  · obtain ⟨e, info, hraise, -⟩ := exists_raise_of_cellWrite hw h ht
    exact raise_eq_of_no_err hraise h
  · exact raise_eq_of_no_err (raise_of_cellRead hr h ht).1 h

-- Code and detail by the cause

/-- A command raises none of the two codes of an access (R182). -/
theorem Raises.code_le {i : Instr} {e : ErrCode} (h : Raises i e) : e.code.toNat ≤ 8 := by
  cases h <;> decide

/-- Every error listed for a command has a code the column "who" gives it (R182). -/
theorem Raises.code_mem_mayRaise {i : Instr} {e : ErrCode} (h : Raises i e) : e.code ∈ mayRaise i := by
  cases h <;> simp [mayRaise, ErrCode.code]

/-- Settles O8, by the cause of the error. -/
theorem errorDetailIsWordOrAddress : Obligations.ErrorDetailIsWordOrAddress := by
  intro s t a h ht
  refine ⟨fun v hw => ?_, fun hr => ?_⟩
  · obtain ⟨e, info, rfl, hcause⟩ := exists_raise_of_cellWrite hw h ht
    rw [raise_of_no_err h]
    cases hcause with
    | illegal ha => exact .inl ⟨ha, ErrCode.ill.code_range.1, (by decide : ErrCode.ill.code.toNat ≤ 8), rfl⟩
    | failed i e ha hd he => exact .inl ⟨ha, e.code_range.1, he.code_le, rfl⟩
    | refused => exact .inr ⟨.inl rfl, rfl⟩
    | strFull | polyFull => exact .inr ⟨.inr rfl, rfl⟩
  · obtain ⟨rfl, -⟩ := raise_of_cellRead hr h ht
    rw [accessError_of_no_err a h]
    exact ⟨rfl, rfl⟩

theorem toNat_ppush_addr (k : PReg) : (Cell.ppush k).addr.toNat = 0x0014 + k.number := by cases k <;> rfl

/-- Settles O9: the cause of the error is the access or the command that the column lists for its code. -/
theorem onlyListedOperationsRaise : Obligations.OnlyListedOperationsRaise := by
  intro s t a h ht
  refine ⟨fun v hw => ?_, fun hr => ?_⟩
  · obtain ⟨e, info, rfl, hcause⟩ := exists_raise_of_cellWrite hw h ht
    rw [raise_of_no_err h]
    cases hcause with
    | illegal ha hd => exact .inl ⟨ha, rfl, hd⟩
    | failed i e ha hd he => exact .inr (.inl ⟨ha, i, hd, he.code_mem_mayRaise⟩)
    | refused hc => exact .inr (.inr (.inl ⟨rfl, hc⟩))
    | strFull ha hf => exact .inr (.inr (.inr (.inl ⟨rfl, ha, hf⟩)))
    | polyFull k ha hf => exact .inr (.inr (.inr (.inr ⟨rfl, k, ha ▸ toNat_ppush_addr k, hf⟩)))
  · obtain ⟨rfl, hc⟩ := raise_of_cellRead hr h ht
    rw [accessError_of_no_err a h]
    exact ⟨rfl, hc⟩

end Sys2Proof.Machine
end

section
/-! PROOFS. Asserting reset (spec/70_reset_and_hazards.md R200, R201): the block restarts, whatever its state was. -/

namespace Sys2Proof.Machine

/-- No item of `s` is a premise, the error items included: only the host's coming moves outlive a reset (log 1). -/
theorem step_reset {s : State} {rest : List HostMove} (h : s.script = .reset :: rest) :
    step s = .next (State.reset.withPort rest none) :=
  calc step s = perform .reset { s with script := rest } := step_move h
    _ = .next (State.reset.withPort rest none) := rfl

/-- Settles O17: the step reaches the reset state, whose items have the values asked for. -/
theorem resetMoveResetsTheBlock : Obligations.ResetMoveResetsTheBlock := fun _ _ h =>
  ⟨_, step_reset h, rfl, rfl, State.reset_poly, rfl, rfl, rfl, rfl, rfl, rfl, rfl, rfl, rfl⟩

end Sys2Proof.Machine
end
